-- ==== Sys2Proof/Word.lean ====
section
/-!
DEFINITION. The two word types of the puttpc CORE and the division of an instruction byte into its two fields.

Every register, memory cell and bus value is one byte (spec/10_state.md R20, spec/20_memory.md R52); all values are
unsigned (spec/00_scope.md R9).
-/
namespace Sys2Proof

/-- A byte: "8 bits, values 0..255" (R9). -/
abbrev Byte := BitVec 8

/-- A 4-bit field of an instruction byte: the opcode `IR[7:4]` or the operand `IR[3:0]` of `Narrow` (R71). -/
abbrev Nibble := BitVec 4

end Sys2Proof
end

