-- ==== Sys2Proof/Machine/ControlWord.lean ====
section
/-!
DEFINITION. The control word: the set of the 20 signals of spec/30_encoding.md R80, as a structure of 20 booleans
(R81), with union, intersection, containment and the optional 20-bit layout of R82; and the two words of the universal
fetch (spec/41_microsequencer.md R123).
-/
namespace Sys2Proof.Machine

/-- The 20 signals, in the row order of R80. -/
inductive Signal where
  | co | ao | bo | io | ro | eo | mi | oi | ai | bi | ii | ri | su | hlt | j | jz | jc | fi | rst | ce
deriving DecidableEq, Repr

/-- A control word: any subset of the 20 signals, the empty set included (R81). A field left out is not asserted. -/
structure CtrlWord where
  /-- program-counter-out: OR `PC` onto the bus (R101). -/
  co : Bool := false
  /-- accA-out: OR `A` onto the bus (R101). -/
  ao : Bool := false
  /-- accB-out: OR `B` onto the bus (R101). -/
  bo : Bool := false
  /-- instruction-out: OR the operand bits of `IR` onto the bus (R102). -/
  io : Bool := false
  /-- memory-out: OR the byte at `MAR` onto the bus (R103). -/
  ro : Bool := false
  /-- adder-out: OR the adder value onto the bus (R104). -/
  eo : Bool := false
  /-- address-in: `MAR <- bus` (R153). -/
  mi : Bool := false
  /-- output-in: `OUT <- bus`, and the cycle produces that byte (R153, R161). -/
  oi : Bool := false
  /-- accA-in: `A <- bus` (R153). -/
  ai : Bool := false
  /-- accB-in: `B <- bus` (R153). -/
  bi : Bool := false
  /-- instruction-in: `IR <- bus` (R153). -/
  ii : Bool := false
  /-- memory-in: the byte at `MAR` `<- bus` (R153). -/
  ri : Bool := false
  /-- ALU mode: the adder subtracts (R104). -/
  su : Bool := false
  /-- halt: the machine is halted while it is asserted (R32, R151). -/
  hlt : Bool := false
  /-- jump-unconditional (R157). -/
  j : Bool := false
  /-- jump-if-zero, on the latched flag (R157). -/
  jz : Bool := false
  /-- jump-if-carry, on the latched flag (R157). -/
  jc : Bool := false
  /-- flags-latch: commit the pending flags (R155). -/
  fi : Bool := false
  /-- microstep-reset: the last word of the instruction's sequence (R125, R160). -/
  rst : Bool := false
  /-- counter-increment: `PC <- (PC + 1) mod CAP` (R158). -/
  ce : Bool := false
deriving DecidableEq, Repr

/-- The empty control word: a no-op cycle (R122). -/
def CtrlWord.empty : CtrlWord where

/-- Containment of one signal: `S in ctrl` of R10. -/
def CtrlWord.has (w : CtrlWord) : Signal → Bool
  | .co => w.co | .ao => w.ao | .bo => w.bo | .io => w.io | .ro => w.ro | .eo => w.eo
  | .mi => w.mi | .oi => w.oi | .ai => w.ai | .bi => w.bi | .ii => w.ii | .ri => w.ri
  | .su => w.su | .hlt => w.hlt | .j => w.j | .jz => w.jz | .jc => w.jc
  | .fi => w.fi | .rst => w.rst | .ce => w.ce

/-- The control word whose signals are those a predicate picks. -/
def CtrlWord.ofPred (p : Signal → Bool) : CtrlWord where
  co := p .co
  ao := p .ao
  bo := p .bo
  io := p .io
  ro := p .ro
  eo := p .eo
  mi := p .mi
  oi := p .oi
  ai := p .ai
  bi := p .bi
  ii := p .ii
  ri := p .ri
  su := p .su
  hlt := p .hlt
  j := p .j
  jz := p .jz
  jc := p .jc
  fi := p .fi
  rst := p .rst
  ce := p .ce

/-- Union of two control words (R81). -/
def CtrlWord.union (v w : CtrlWord) : CtrlWord := CtrlWord.ofPred fun g => v.has g || w.has g

/-- Intersection of two control words (R81). -/
def CtrlWord.inter (v w : CtrlWord) : CtrlWord := CtrlWord.ofPred fun g => v.has g && w.has g

/-- Containment of one control word in another (R81). -/
def CtrlWord.subset (v w : CtrlWord) : Bool := decide (CtrlWord.inter v w = v)

/-- The bit of a signal in the optional 20-bit layout of R82: its row in R80, counted from 0. -/
def Signal.bit : Signal → Nat
  | .co => 0 | .ao => 1 | .bo => 2 | .io => 3 | .ro => 4 | .eo => 5
  | .mi => 6 | .oi => 7 | .ai => 8 | .bi => 9 | .ii => 10 | .ri => 11
  | .su => 12 | .hlt => 13 | .j => 14 | .jz => 15 | .jc => 16
  | .fi => 17 | .rst => 18 | .ce => 19

/-- The control word a 20-bit word of R82 stands for. -/
def CtrlWord.ofBits (v : BitVec 20) : CtrlWord := CtrlWord.ofPred fun g => v.getLsbD g.bit

/-- The 20-bit word of R82 of a control word: `CO` is bit 0, `CE` is bit 19. -/
def CtrlWord.toBits (w : CtrlWord) : BitVec 20 :=
  BitVec.ofBool w.ce ++ BitVec.ofBool w.rst ++ BitVec.ofBool w.fi ++ BitVec.ofBool w.jc ++ BitVec.ofBool w.jz ++
  BitVec.ofBool w.j ++ BitVec.ofBool w.hlt ++ BitVec.ofBool w.su ++ BitVec.ofBool w.ri ++ BitVec.ofBool w.ii ++
  BitVec.ofBool w.bi ++ BitVec.ofBool w.ai ++ BitVec.ofBool w.oi ++ BitVec.ofBool w.mi ++ BitVec.ofBool w.eo ++
  BitVec.ofBool w.ro ++ BitVec.ofBool w.io ++ BitVec.ofBool w.bo ++ BitVec.ofBool w.ao ++ BitVec.ofBool w.co

/-- Universal fetch, microstep 0: `CO|MI`, `MAR <- PC` (R123). -/
def fetchAddress : CtrlWord := { co := true, mi := true }

/-- Universal fetch, microstep 1: `RO|II|CE`, `IR <- MemRead(MAR, 1)` and `PC <- (PC + 1) mod CAP` (R123). -/
def fetchOpcode : CtrlWord := { ro := true, ii := true, ce := true }

end Sys2Proof.Machine
end

