-- ==== Sys2Proof/Machine/State.lean ====
section
/-!
DEFINITION. The state of the puttpc CORE (spec/10_state.md), the reasons a cycle can stop, and the state after
construction, its only reset (R37, R260).
-/
namespace Sys2Proof.Machine

/-- The fatal conditions, a closed enumeration (spec/60_exceptions.md R230). Each ends the machine: there is no handler
(R237). -/
inductive Fault where
  /-- Raised by the decode phase of a cycle whose post-write `IR` does not decode (R159, R231), with that byte. Safe: it
  is the condition the spec describes. -/
  | decodeError (ir : Byte)
  /-- Raised by `setInput` when the image is longer than the memory (R165, R232), with its length. Safe: the spec's own
  condition. -/
  | inputTooLong (length : Nat)
  /-- Raised by memory-out in the resolve phase and by memory-in in the write phase when `MAR >= CAP` (R53, R103, R233),
  with the `MAR` value. Safe: the spec stops where a real core might wrap the address (D15). -/
  | memoryAddressOutOfRange (mar : Byte)
deriving DecidableEq, Repr

/-- Why the model gives no meaning. -/
inductive Refusal where
  /-- An instruction of the table that `exec` gives no meaning. No arm of this model raises it. Safe. -/
  | notModelled (mnemonic : String)
  /-- Raised by construction when the variant record is not well formed (R7, R128): "an ill-formed record is refused
  before any cycle is taken" (R8, D9). Safe. -/
  | illFormedVariant
  /-- Raised by a cycle whose control word holds both `MI` and `RI` and no `HLT`: which `MAR` the write uses is not
  settled, and the spec refuses every table with such a word (R128, D22). No well-formed variant reaches it. Safe. -/
  | addressAndMemoryIn
  /-- Raised by `setInput` on a machine that is not freshly constructed (R165, D25). Safe. -/
  | inputAfterStart
deriving DecidableEq, Repr

/-- The six registers, in the order of their index numbers 0..5 (R20, D10). -/
inductive Reg where
  | pc | a | b | out | mar | ir
deriving DecidableEq, Repr

/-- A pair of flag bits: the latched flags (R28) or the pending flags (R29). -/
structure Flags where
  /-- Zero. -/
  z : Bool
  /-- Carry. -/
  c : Bool
deriving DecidableEq, Repr

/-- Memory as (address, byte) pairs in canonical form (`Memory.wf`): addresses strictly rising, no entry 0. An unlisted
address reads as 0, the value construction gives every byte (R37). -/
abbrev Memory := List Host.Cell

/-- Everything the spec gives the machine (R4, R20, R28-R34), with two records of the model's own. -/
structure State where
  /-- `PC`, ProgramCounter (R23). -/
  pc : Byte
  /-- `A`, AccA (R24). -/
  a : Byte
  /-- `B`, AccB (R24). -/
  b : Byte
  /-- `OUT`, OutputLatch (R25). -/
  out : Byte
  /-- `MAR`, MemoryAddress (R26). -/
  mar : Byte
  /-- `IR`, InstructionReg (R27). -/
  ir : Byte
  /-- The latched flags `Z`, `C` (R28). -/
  flags : Flags
  /-- The pending-flags register `pZ`, `pC` (R29). -/
  pending : Flags
  /-- The current control word (R30). -/
  ctrl : CtrlWord
  /-- The microstep counter (R31). -/
  mstep : Nat
  /-- The memory array (R34). -/
  mem : Memory
  /-- The fault record, sticky (R33, R162). -/
  fault : Option Fault
  /-- The mark of a bound-forced reset, sticky (R33, R127). -/
  boundReset : Bool
  /-- The model's own record: every byte `step()` has returned since construction, oldest first (R161, R166). No rule
  reads it. -/
  outputs : List Byte
  /-- The model's own record: no cycle and no `setInput` has happened since construction (R165, D25). Only `setInput`
  reads it. -/
  fresh : Bool
deriving DecidableEq, Repr

/-- The state after `new()` (R37, R260). -/
def State.reset : State where
  pc := 0
  a := 0
  b := 0
  out := 0
  mar := 0
  ir := 0
  flags := { z := false, c := false }
  pending := { z := false, c := false }
  ctrl := fetchAddress
  mstep := 0
  mem := []
  fault := none
  boundReset := false
  outputs := []
  fresh := true

end Sys2Proof.Machine
end

