-- ==== Sys2Proof/Machine/Flags.lean ====
section
/-!
DEFINITION. The adder and its two flag outputs (block alu_with_flags, combinational part,
spec/40_bus_resolver_alu.md R104-R107, R110).
-/
namespace Sys2Proof.Machine

/-- The adder value: `(a - b) mod 256` in subtract mode, else `(a + b) mod 256` (R104). -/
def adderValue (a b : Byte) (su : Bool) : Byte := if su then a - b else a + b

/-- Carry: a borrow in subtract mode, an overflow in add mode (R105; the reading of "borrow" is the spec's decision
D20). -/
def adderCarry (a b : Byte) (su : Bool) : Bool :=
  if su then decide (a.toNat < b.toNat) else decide (255 < a.toNat + b.toNat)

/-- Zero: the wrapped value is 0, in both modes (R106). -/
def adderZero (a b : Byte) (su : Bool) : Bool := decide (adderValue a b su = 0)

/-- Both flag outputs, live in every cycle (R107). -/
def adderFlags (a b : Byte) (su : Bool) : Flags := { z := adderZero a b su, c := adderCarry a b su }

end Sys2Proof.Machine
end

