-- ==== Sys2Proof/Config.lean ====
section
/-!
DEFINITION. What an implementation fixes: the variant record `V` of spec/00_scope.md R6, the parameter of every rule of
the core ("one Machine Core parameterized by an injected {Decoder, Microsequencer} pair",
spec/42_machine_core.md).

The core is written once over any record. `Sys2Proof.Machine.narrow` is the reference instance;
`Sys2Proof.Machine.extendedNarrow` and `Sys2Proof.Machine.wide` take the fields the spec leaves OPEN as arguments
(spec/92_eei_decisions.md D4, D5). No value of this model is a free value: the spec leaves no result of an instruction
open.
-/
namespace Sys2Proof

open Sys2Proof.Machine (CtrlWord)

/-- The decoder's only failure (R75): the byte is outside the variant's enumeration of opcodes. -/
inductive DecodeError where
  /-- `IR` holds a byte that spells no instruction of the variant (R77, R231). -/
  | undefinedOpcode (ir : Byte)
deriving DecidableEq, Repr

/-- The variant record of R6. `ι` is the variant's closed enumeration of instructions (R75). `AMASK` is no field: it is
`CAP - 1` in every variant (R6, D8), see `Variant.addressMask`. -/
structure Variant (ι : Type) where
  /-- `CAP`: memory capacity in bytes. -/
  cap : Nat
  /-- `OPMASK`: the bits of `IR` that instruction-out drives. -/
  opMask : Byte
  /-- `BOUND`: the microstep safety bound. -/
  bound : Nat
  /-- `Decode`: the decoder map, of the whole `IR` byte (R75). -/
  decode : Byte → Except DecodeError ι
  /-- `Microcode`: the microsequencer table (R121). -/
  microcode : ι → Nat → CtrlWord

end Sys2Proof
end

