-- ==== Sys2Proof/Machine/Ops.lean ====
section
/-!
DEFINITION. The named operations over registers and memory, the address arithmetic of the program counter, and the one
way a fatal condition is raised and recorded (spec/10_state.md, spec/20_memory.md, spec/60_exceptions.md).
-/
namespace Sys2Proof.Machine

/-! ### Memory -/

/-- The byte at an address; an unlisted address reads as 0 (R37). -/
def Memory.read : Memory → Nat → Byte
  | [], _ => 0
  | (k, v) :: t, addr => if k = addr then v else Memory.read t addr

/-- A byte put before the rest of a memory: a 0 is not listed. -/
def Memory.entry (addr : Nat) (v : Byte) (t : Memory) : Memory := if v = 0#8 then t else (addr, v) :: t

/-- The memory with one byte written, in canonical form: writing 0 removes the entry. -/
def Memory.write : Memory → Nat → Byte → Memory
  | [], addr, v => Memory.entry addr v []
  | (k, w) :: t, addr, v =>
    if addr < k then Memory.entry addr v ((k, w) :: t)
    else if addr = k then Memory.entry addr v t
    else (k, w) :: Memory.write t addr v

/-- Every entry lies at or above an address, addresses rise strictly, and no entry is 0. -/
def Memory.sortedFrom : Nat → Memory → Bool
  | _, [] => true
  | lo, (k, v) :: t => decide (lo ≤ k) && decide (v ≠ 0#8) && Memory.sortedFrom (k + 1) t

/-- The canonical form of a memory. -/
def Memory.wf (m : Memory) : Bool := Memory.sortedFrom 0 m

/-- Every listed address is below `cap`. -/
def Memory.below (cap : Nat) (m : Memory) : Bool := m.all fun cell => decide (cell.1 < cap)

/-- `MemRead(addr, 1)` through `MAR`, with the range check of R53 and R103. -/
def memRead {ι : Type} (V : Variant ι) (m : Memory) (mar : Byte) : Except Fault Byte :=
  if mar.toNat < V.cap then .ok (m.read mar.toNat) else .error (.memoryAddressOutOfRange mar)

/-- `MemWrite(addr, 1, v)` through `MAR`, with the range check of R53 and R153. -/
def memWrite {ι : Type} (V : Variant ι) (m : Memory) (mar : Byte) (v : Byte) : Except Fault Memory :=
  if mar.toNat < V.cap then .ok (m.write mar.toNat v) else .error (.memoryAddressOutOfRange mar)

/-- The bytes of an image written from an address upwards, the loop of `setInput` (R165). -/
def loadBytes : Nat → List Byte → Memory → Memory
  | _, [], m => m
  | addr, v :: vs, m => loadBytes (addr + 1) vs (m.write addr v)

/-! ### Registers -/

/-- The index number of a register (R20, D10); nothing depends on it. -/
def Reg.index : Reg → Nat
  | .pc => 0 | .a => 1 | .b => 2 | .out => 3 | .mar => 4 | .ir => 5

/-- `reg[r]` (R10). -/
def State.reg (s : State) : Reg → Byte
  | .pc => s.pc | .a => s.a | .b => s.b | .out => s.out | .mar => s.mar | .ir => s.ir

/-- `reg[r] <- v` (R10). -/
def State.setReg (s : State) (r : Reg) (v : Byte) : State :=
  match r with
  | .pc => { s with pc := v }
  | .a => { s with a := v }
  | .b => { s with b := v }
  | .out => { s with out := v }
  | .mar => { s with mar := v }
  | .ir => { s with ir := v }

/-- One latch of the register file: the write enable decides whether the bus is written (R21, R153). -/
def State.latch (s : State) (enable : Bool) (r : Reg) (bus : Byte) : State :=
  if enable then s.setReg r bus else s

/-! ### Program-counter arithmetic -/

/-- `AMASK = CAP - 1` (R6, D8). -/
def addressMask {ι : Type} (V : Variant ι) : Byte := BitVec.ofNat 8 (V.cap - 1)

/-- `bus` masked to the address width, the target of a jump (R157). -/
def jumpTarget {ι : Type} (V : Variant ι) (bus : Byte) : Byte := bus &&& addressMask V

/-- `(pc + 1) mod CAP` (R158). -/
def nextPc {ι : Type} (V : Variant ι) (pc : Byte) : Byte := BitVec.ofNat 8 ((pc.toNat + 1) % V.cap)

/-! ### Fatal conditions

A fault is the core's only exception. It saves no state, changes no mode and transfers control nowhere: the machine
stops and the caller gets the kind and its info (R237). There is no return (R238). -/

/-- `raise Fault(kind, info)`: the one way a cycle or `setInput` ends in a fatal condition (R10, R162, R237). -/
def raiseFault {σ : Type} (f : Fault) : Host.Outcome σ Fault Refusal := .fault f

/-- The faulted machine as the caller holds it: the record is set and stays (R33, R162). Nothing else is claimed of it;
the other fields are kept only because a state must hold some value. -/
def State.recordFault (s : State) (f : Fault) : State :=
  match s.fault with
  | some _ => s
  | none => { s with fault := some f }

end Sys2Proof.Machine
end

