-- ==== Sys2Proof/Machine/Operands.lean ====
section
/-!
DEFINITION. The bus resolver (block bus_resolver_mux, spec/40_bus_resolver_alu.md R100-R103, R108, R109, R111): from the
state at the start of the cycle and the current control word, the bus value and the adder's flag outputs.
-/
namespace Sys2Proof.Machine

/-- What instruction-out drives: the operand bits of `IR`, the opcode bits excluded (R102). The only operand form. -/
def operandOut {ι : Type} (V : Variant ι) (ir : Byte) : Byte := ir &&& V.opMask

/-- One driver's share of the wired OR: its source when enabled, else 0 (R101). -/
def driven (enable : Bool) (source : Byte) : Byte := if enable then source else 0

/-- What memory-out drives: memory is read only in a cycle that asserts `RO`, and a read out of range faults (R103). -/
def memoryOut {ι : Type} (V : Variant ι) (s : State) : Except Fault Byte :=
  if s.ctrl.ro then memRead V s.mem s.mar else .ok 0

/-- The outputs of the resolver (R100). -/
structure Resolved where
  /-- The bus value of the cycle. -/
  bus : Byte
  /-- The adder's flag outputs of the cycle. -/
  newPend : Flags
deriving DecidableEq, Repr

/-- `resolve(registers, memory, ctrl)` (R100): the wired OR of every enabled driver (R101, R108), starting from 0
(R109), and the adder's flags whatever the word (R107). -/
def resolve {ι : Type} (V : Variant ι) (s : State) : Except Fault Resolved :=
  match memoryOut V s with
  | .error f => .error f
  | .ok m => .ok
      { bus := driven s.ctrl.co s.pc ||| driven s.ctrl.ao s.a ||| driven s.ctrl.bo s.b |||
          driven s.ctrl.io (operandOut V s.ir) ||| m ||| driven s.ctrl.eo (adderValue s.a s.b s.ctrl.su)
        newPend := adderFlags s.a s.b s.ctrl.su }

end Sys2Proof.Machine
end

