-- ==== Sys2Proof/Machine/Cycle.lean ====
section
/-!
DEFINITION. The machine core sequencer (block machine_core_sequencer, spec/42_machine_core.md): one machine cycle, the
spec's `step()`, for any variant record, phase by phase in the order of R150.
-/
namespace Sys2Proof.Machine

/-- `halted = (HLT in ctrl)`, derived, not stored (R32, R167). -/
def State.halted (s : State) : Bool := s.ctrl.hlt

/-- Write phase (R153): every enabled latch takes the same bus value; `RI` writes the byte at `MAR` and may fault. -/
def writePhase {ι : Type} (V : Variant ι) (bus : Byte) (s : State) : Except Fault State :=
  let t := ((((s.latch s.ctrl.mi .mar bus).latch s.ctrl.oi .out bus).latch s.ctrl.ai .a bus).latch
    s.ctrl.bi .b bus).latch s.ctrl.ii .ir bus
  if s.ctrl.ri then
    match memWrite V t.mem t.mar bus with
    | .error f => .error f
    | .ok m => .ok { t with mem := m }
  else .ok t

/-- Flag commit (R155): with `FI`, both latched flags take the pending flags as they stood at the start of the cycle. -/
def commitFlags (s : State) : State := if s.ctrl.fi then { s with flags := s.pending } else s

/-- Pending update (R156): in every cycle, after the commit (D11). -/
def updatePending (newPend : Flags) (s : State) : State := { s with pending := newPend }

/-- The jump condition, on the latched flags after this cycle's commit (R157). -/
def jumpTaken (s : State) : Bool := s.ctrl.j || (s.ctrl.jz && s.flags.z) || (s.ctrl.jc && s.flags.c)

/-- Jump phase (R157). -/
def jumpPhase {ι : Type} (V : Variant ι) (bus : Byte) (s : State) : State :=
  if jumpTaken s then { s with pc := jumpTarget V bus } else s

/-- Increment phase (R158), on the program counter after the jump phase. -/
def incrementPhase {ι : Type} (V : Variant ι) (s : State) : State :=
  if s.ctrl.ce then { s with pc := nextPc V s.pc } else s

/-- The next microstep (R160): 0 after a word with `RST` (R125), 0 when the advanced value would exceed `BOUND` (R126),
else one more. -/
def nextMstep {ι : Type} (V : Variant ι) (s : State) : Nat :=
  if s.ctrl.rst then 0 else if V.bound < s.mstep + 1 then 0 else s.mstep + 1

/-- The counter's reset comes from the safety bound and not from `RST` (R127). -/
def boundForced {ι : Type} (V : Variant ι) (s : State) : Bool := !s.ctrl.rst && decide (V.bound < s.mstep + 1)

/-- Advance phase (R160): the next microstep, the table looked up at it, and the mark of R127. -/
def advancePhase {ι : Type} (V : Variant ι) (i : ι) (s : State) : State :=
  { s with
    mstep := nextMstep V s
    ctrl := V.microcode i (nextMstep V s)
    boundReset := s.boundReset || boundForced V s }

/-- The value `step()` returns (R161): the bus when `OI` is asserted, else none. -/
def producedOutput (w : CtrlWord) (bus : Byte) : Option Byte := if w.oi then some bus else none

/-- Return phase (R161), with the model's two records kept: the outputs so far, and that the machine has run. -/
def returnPhase (o : Option Byte) (s : State) : State := { s with outputs := s.outputs ++ o.toList, fresh := false }

/-- The phases between the write and the decode: flag commit, pending update, jump, increment (R155-R158). -/
def middlePhases {ι : Type} (V : Variant ι) (r : Resolved) (s : State) : State :=
  incrementPhase V (jumpPhase V r.bus (updatePending r.newPend (commitFlags s)))

/-- Decode, advance and return (R159-R161): a byte that does not decode ends the cycle in `DecodeError`. -/
def finalPhases {ι : Type} (V : Variant ι) (o : Option Byte) (s : State) :
    Host.Outcome (State × Option Byte) Fault Refusal :=
  match V.decode s.ir with
  | .error _ => raiseFault (.decodeError s.ir)
  | .ok i => .next (returnPhase o (advancePhase V i s), o)

/-- The cycle of a machine that is neither faulted nor halted (R150). A word with both `MI` and `RI` is refused (R128,
D22). -/
def runningCycle {ι : Type} (V : Variant ι) (s : State) : Host.Outcome (State × Option Byte) Fault Refusal :=
  if s.ctrl.mi && s.ctrl.ri then .refused .addressAndMemoryIn
  else
    match resolve V s with
    | .error f => raiseFault f
    | .ok r =>
      match writePhase V r.bus s with
      | .error f => raiseFault f
      | .ok t => finalPhases V (producedOutput s.ctrl r.bus) (middlePhases V r t)

/-- One machine cycle, the spec's `step() -> Option<Byte>` (R150), with the byte it returns. A faulted machine takes no
further cycle (R162); a halted one does not change and returns none (R151). -/
def cycle {ι : Type} (V : Variant ι) (s : State) : Host.Outcome (State × Option Byte) Fault Refusal :=
  match s.fault with
  | some f => raiseFault f
  | none => if s.halted then .next (s, none) else runningCycle V s

/-- The cycle with its returned byte dropped; the byte stays in `outputs`. -/
def tick {ι : Type} (V : Variant ι) (s : State) : Host.Outcome State Fault Refusal :=
  match cycle V s with
  | .next (t, _) => .next t
  | .fault f => .fault f
  | .refused r => .refused r

/-- Go on from a next state; a fault or a refusal stands. -/
def andThen (o : Host.Outcome State Fault Refusal) (f : State → Host.Outcome State Fault Refusal) :
    Host.Outcome State Fault Refusal :=
  match o with
  | .next s => f s
  | .fault e => .fault e
  | .refused r => .refused r

/-- `n` cycles in a row. -/
def cycles {ι : Type} (V : Variant ι) : Nat → State → Host.Outcome State Fault Refusal
  | 0, s => .next s
  | n + 1, s => andThen (tick V s) (cycles V n)

end Sys2Proof.Machine
end

