-- ==== Sys2Proof/Syntax.lean ====
section
/-!
DEFINITION. The instructions of the `Narrow` reference instance: one constructor per row of spec/opcode_table.json
(spec/30_encoding.md R76).

Every constructor carries the operand nibble `IR[3:0]` of its byte. LDA, ADD, SUB and STA use it as a memory address,
LDI as an immediate, JMP, JC and JZ as a jump target (R72). NOP, OUT and HLT ignore it (R78); they carry it too,
because the instruction register holds the whole byte, so an instruction and its byte determine each other.
-/
namespace Sys2Proof

/-- An instruction of the `Narrow` reference instance (R76). -/
inductive Instr where
  /-- `0000xxxx`, R210; the nibble is ignored (R78). -/
  | nop (x : Nibble)
  /-- `0001kkkk`, R180: load `A` from memory address `k`. -/
  | lda (k : Nibble)
  /-- `0010kkkk`, R190: add the byte at memory address `k` to `A`. -/
  | add (k : Nibble)
  /-- `0011kkkk`, R191: subtract the byte at memory address `k` from `A`. -/
  | sub (k : Nibble)
  /-- `0100kkkk`, R181: store `A` at memory address `k`. -/
  | sta (k : Nibble)
  /-- `0101kkkk`, R182: load `A` with the immediate `k`. -/
  | ldi (k : Nibble)
  /-- `0110kkkk`, R200: jump to `k`. -/
  | jmp (k : Nibble)
  /-- `0111kkkk`, R201: jump to `k` if the latched carry is set. -/
  | jc (k : Nibble)
  /-- `1000kkkk`, R202: jump to `k` if the latched zero is set. -/
  | jz (k : Nibble)
  /-- `1110xxxx`, R211: output `A`; the nibble is ignored (R78). -/
  | out (x : Nibble)
  /-- `1111xxxx`, R212: halt; the nibble is ignored (R78). -/
  | hlt (x : Nibble)
deriving DecidableEq, Repr

end Sys2Proof
end

