-- ==== Sys2Proof/Decode.lean ====
section
/-!
DEFINITION. The decoder of the `Narrow` reference instance (block instruction_decoder, spec/30_encoding.md R75-R78) and,
after it, the encoder, both written from the map of R76.
-/
namespace Sys2Proof

/-- The opcode field `IR[7:4]` (R71). -/
def opcodeField (b : Byte) : Nibble := b.extractLsb' 4 4

/-- The operand field `IR[3:0]` (R71). -/
def operandField (b : Byte) : Nibble := b.extractLsb' 0 4

/-- The reference decoder map (R76), total on bytes: the opcode field alone selects the instruction (R75, D17), and the
opcodes 0x9..0xD fail by name (R77). -/
def decode (b : Byte) : Except DecodeError Instr :=
  match (opcodeField b).toNat with
  | 0x0 => .ok (.nop (operandField b))
  | 0x1 => .ok (.lda (operandField b))
  | 0x2 => .ok (.add (operandField b))
  | 0x3 => .ok (.sub (operandField b))
  | 0x4 => .ok (.sta (operandField b))
  | 0x5 => .ok (.ldi (operandField b))
  | 0x6 => .ok (.jmp (operandField b))
  | 0x7 => .ok (.jc (operandField b))
  | 0x8 => .ok (.jz (operandField b))
  | 0xE => .ok (.out (operandField b))
  | 0xF => .ok (.hlt (operandField b))
  | _ => .error (.undefinedOpcode b)

/-- The opcode value of an instruction (R76). -/
def Instr.opcode : Instr → Nibble
  | .nop _ => 0x0
  | .lda _ => 0x1
  | .add _ => 0x2
  | .sub _ => 0x3
  | .sta _ => 0x4
  | .ldi _ => 0x5
  | .jmp _ => 0x6
  | .jc _ => 0x7
  | .jz _ => 0x8
  | .out _ => 0xE
  | .hlt _ => 0xF

/-- The operand nibble of an instruction, used or ignored (R72, R78). -/
def Instr.operand : Instr → Nibble
  | .nop k | .lda k | .add k | .sub k | .sta k | .ldi k | .jmp k | .jc k | .jz k | .out k | .hlt k => k

/-- The byte of an instruction: `(opcode << 4) | k` (R83). -/
def encode (i : Instr) : Byte := i.opcode ++ i.operand

/-- What the decoder reads from an instruction whose bits are `w`, numbered as spec/opcode_table.json numbers them: every
instruction is one byte (R70), so bit 0 of `w` is bit 0 of that byte. -/
def decodeTableWord (nbits w : Nat) : Option Instr :=
  match decode (BitVec.ofNat 8 (w % 2 ^ nbits)) with
  | .ok i => some i
  | .error _ => none

end Sys2Proof
end

