-- ==== Sys2Proof/Machine/Microcode.lean ====
section
/-!
DEFINITION. The microsequencer ROM (block microsequencer_rom, spec/41_microsequencer.md): the shape every table has
(R121-R124), and the reference table of `Narrow`, each instruction's execute words from microstep 2 in order
(R130-R141).
-/
namespace Sys2Proof.Machine

/-- A table row from its execute words: the universal fetch at 0 and 1 (R123), the words from microstep 2 (R124), and
the empty word at every microstep that has no entry (R122). -/
def microRow (execute : List CtrlWord) : Nat → CtrlWord
  | 0 => fetchAddress
  | 1 => fetchOpcode
  | m + 2 => execute.getD m CtrlWord.empty

/-- NOP: `2: RST` (R130). -/
def microNop : List CtrlWord := [{ rst := true }]

/-- LDA: `2: IO|MI`, `3: RO|AI|RST` (R131). -/
def microLda : List CtrlWord := [{ io := true, mi := true }, { ro := true, ai := true, rst := true }]

/-- ADD: `2: IO|MI`, `3: RO|BI`, `4: EO|AI|FI|RST` (R132). -/
def microAdd : List CtrlWord :=
  [{ io := true, mi := true }, { ro := true, bi := true }, { eo := true, ai := true, fi := true, rst := true }]

/-- SUB: `2: IO|MI`, `3: RO|BI`, `4: EO|AI|SU|FI|RST` (R133). -/
def microSub : List CtrlWord :=
  [{ io := true, mi := true }, { ro := true, bi := true },
    { eo := true, ai := true, su := true, fi := true, rst := true }]

/-- STA: `2: IO|MI`, `3: AO|RI|RST` (R134). -/
def microSta : List CtrlWord := [{ io := true, mi := true }, { ao := true, ri := true, rst := true }]

/-- LDI: `2: IO|AI|RST` (R135). -/
def microLdi : List CtrlWord := [{ io := true, ai := true, rst := true }]

/-- JMP: `2: IO|J|RST` (R136). -/
def microJmp : List CtrlWord := [{ io := true, j := true, rst := true }]

/-- JC: `2: IO|JC|RST` (R137). -/
def microJc : List CtrlWord := [{ io := true, jc := true, rst := true }]

/-- JZ: `2: IO|JZ|RST` (R138). -/
def microJz : List CtrlWord := [{ io := true, jz := true, rst := true }]

/-- OUT: `2: AO|OI|RST` (R139). -/
def microOut : List CtrlWord := [{ ao := true, oi := true, rst := true }]

/-- HLT: `2: HLT` (R140). -/
def microHlt : List CtrlWord := [{ hlt := true }]

/-- The execute words of an instruction (R141); the operand does not select them (R75). -/
def executeWords : Instr → List CtrlWord
  | .nop _ => microNop
  | .lda _ => microLda
  | .add _ => microAdd
  | .sub _ => microSub
  | .sta _ => microSta
  | .ldi _ => microLdi
  | .jmp _ => microJmp
  | .jc _ => microJc
  | .jz _ => microJz
  | .out _ => microOut
  | .hlt _ => microHlt

/-- `nextControl(instruction, microstep)` of the reference instance, total and without state (R120, R121). -/
def microcode (i : Instr) (m : Nat) : CtrlWord := microRow (executeWords i) m

end Sys2Proof.Machine
end

