-- ==== Sys2Proof/Machine/Variants.lean ====
section
/-!
DEFINITION. The three variants of the core (spec/00_scope.md R3, R6). `narrow` is the reference instance, on which
`exec` and `step` run; the other two take what the spec leaves OPEN as arguments (D4, D5).
-/
namespace Sys2Proof.Machine

/-- `Narrow`, the reference instance: `CAP` 16, `OPMASK` 0x0F, `BOUND` 5, the decoder of R76 and the table of
R130-R141. -/
def narrow : Variant Instr where
  cap := 16
  opMask := 0x0F
  bound := 5
  decode := Sys2Proof.decode
  microcode := Sys2Proof.Machine.microcode

/-- A decoder map of the `Narrow` format: it looks only at `IR[7:4]` (R75, R84, D17), here through the map of the 16
opcode values to the instructions, none where the value is outside the enumeration. -/
def decodeByOpcode {ι : Type} (opcodes : Nibble → Option ι) (b : Byte) : Except DecodeError ι :=
  match opcodes (opcodeField b) with
  | some i => .ok i
  | none => .error (.undefinedOpcode b)

/-- `ExtendedNarrow`: the `Narrow` format with more opcodes, opcode `IR[7:4]` and operand `IR[3:0]`; which opcode values
it has, and their microcode, are OPEN (R74, D4). -/
def extendedNarrow {ι : Type} (opcodes : Nibble → Option ι) (microcode : ι → Nat → CtrlWord) : Variant ι where
  cap := 16
  opMask := 0x0F
  bound := 5
  decode := decodeByOpcode opcodes
  microcode := microcode

/-- `Wide`: 256 bytes of memory; its operand mask, instructions, decoder map and microcode are OPEN (R73, D5). -/
def wide {ι : Type} (opMask : Byte) (decode : Byte → Except DecodeError ι) (microcode : ι → Nat → CtrlWord) :
    Variant ι where
  cap := 256
  opMask := opMask
  bound := 5
  decode := decode
  microcode := microcode

end Sys2Proof.Machine
end

