-- ==== Sys2Proof/Machine/Sequence.lean ====
section
/-!
DEFINITION. Whole instructions of the `Narrow` reference instance as runs of machine cycles: the universal fetch
(spec/41_microsequencer.md R123, spec/42_machine_core.md R164) and the execute sequence from microstep 2 to its end
(R124-R126). Every meaning is the execute sequence of its instruction: "A model defines instructions by the cycle rules
and the table" (spec/43_instr_memory.md).
-/
namespace Sys2Proof.Machine

/-- The machine is between two instructions: microstep 0 with the universal fetch word (R163). -/
def State.atBoundary (s : State) : Bool := decide (s.mstep = 0) && decide (s.ctrl = fetchAddress)

/-- The sequence in progress has ended: the counter is back at 0 (R125, R126), or the machine is halted (R129). -/
def sequenceDone (s : State) : Bool := decide (s.mstep = 0) || s.halted

/-- Cycles until the sequence in progress ends, at most `n` of them. -/
def finish : Nat → State → Host.Outcome State Fault Refusal
  | 0, s => .next s
  | n + 1, s => if sequenceDone s then .next s else andThen (tick narrow s) (finish n)

/-- Enough cycles for any sequence: the safety bound ends it after microstep `BOUND` (R126). -/
def sequenceFuel : Nat := narrow.bound + 1

/-- The universal fetch: two cycles (R123, R164). A byte that does not decode ends the second one in `DecodeError`
(R79, R213). -/
def fetch (s : State) : Host.Outcome State Fault Refusal := cycles narrow 2 s

/-- The machine with instruction `i` fetched: its byte in `IR` and its first execute word current, at microstep 2. The
universal fetch leaves exactly this (R164), so on a state it left this changes nothing. -/
def State.fetchedInstr (s : State) (i : Instr) : State :=
  { s with ir := encode i, mstep := 2, ctrl := microcode i 2 }

/-- The execute sequence of instruction `i`: its cycles from microstep 2 to the end of its sequence (R124). A faulted
machine takes no cycle (R162). -/
def executeInstr (i : Instr) (s : State) : Host.Outcome State Fault Refusal :=
  match s.fault with
  | some f => raiseFault f
  | none => finish sequenceFuel (s.fetchedInstr i)

/-- The instruction held in `IR`, for a step to run once it is fetched (R159). -/
def instrInIr (s : State) : Except DecodeError Instr := narrow.decode s.ir

/-- `s` with an instruction word placed where the next fetch reads it: its one byte at address `PC`, and the machine
between two instructions. -/
def State.placeWord (s : State) (byte : Byte) : State :=
  { s with mem := s.mem.write s.pc.toNat byte, mstep := 0, ctrl := fetchAddress }

end Sys2Proof.Machine
end

