-- ==== Sys2Proof/Machine/Arith.lean ====
section
/-!
DEFINITION. Arithmetic instructions: ADD, SUB (spec/44_instr_arith.md). Each meaning is the instruction's execute
sequence, run on the machine that has fetched it. The flags they latch are those of `A + B_old` in add mode, the
adder's outputs of the cycle before the `FI` word (R192).
-/
namespace Sys2Proof.Machine

/-- ADD k (R190): `MAR <- k`, `B <- MemRead(k, 1)`, `A <- A + B`, by the words of R132. -/
def execAdd (k : Nibble) (s : State) : Host.Outcome State Fault Refusal := executeInstr (.add k) s

/-- SUB k (R191): `MAR <- k`, `B <- MemRead(k, 1)`, `A <- A - B`, by the words of R133. -/
def execSub (k : Nibble) (s : State) : Host.Outcome State Fault Refusal := executeInstr (.sub k) s

end Sys2Proof.Machine
end

