-- ==== Sys2Proof/Machine/Control.lean ====
section
/-!
DEFINITION. Control-transfer instructions: JMP, JC, JZ (spec/45_instr_control.md). Each meaning is the instruction's
execute sequence, run on the machine that has fetched it.
-/
namespace Sys2Proof.Machine

/-- JMP k (R200): `pc <- k`, by the word of R136. -/
def execJmp (k : Nibble) (s : State) : Host.Outcome State Fault Refusal := executeInstr (.jmp k) s

/-- JC k (R201): `pc <- k` if the latched carry is set, by the word of R137. -/
def execJc (k : Nibble) (s : State) : Host.Outcome State Fault Refusal := executeInstr (.jc k) s

/-- JZ k (R202): `pc <- k` if the latched zero is set, by the word of R138. -/
def execJz (k : Nibble) (s : State) : Host.Outcome State Fault Refusal := executeInstr (.jz k) s

end Sys2Proof.Machine
end

