-- ==== Sys2Proof/Machine/Memory.lean ====
section
/-!
DEFINITION. Load and store instructions: LDA, STA, LDI (spec/43_instr_memory.md). Each meaning is the instruction's
execute sequence, run on the machine that has fetched it.
-/
namespace Sys2Proof.Machine

/-- LDA k (R180): `MAR <- k`, then `A <- MemRead(k, 1)`, by the words of R131. -/
def execLda (k : Nibble) (s : State) : Host.Outcome State Fault Refusal := executeInstr (.lda k) s

/-- STA k (R181): `MAR <- k`, then `MemWrite(k, 1, A)`, by the words of R134. -/
def execSta (k : Nibble) (s : State) : Host.Outcome State Fault Refusal := executeInstr (.sta k) s

/-- LDI k (R182): `A <- zext_8(k)`, by the word of R135. -/
def execLdi (k : Nibble) (s : State) : Host.Outcome State Fault Refusal := executeInstr (.ldi k) s

end Sys2Proof.Machine
end

