-- ==== Sys2Proof/Machine/System.lean ====
section
/-!
DEFINITION. NOP, OUT and HLT (spec/46_instr_system.md). Each meaning is the instruction's execute sequence, run on the
machine that has fetched it. The operand nibble is ignored (R78); it stands in `IR`.
-/
namespace Sys2Proof.Machine

/-- NOP (R210): no effect beyond the fetch, by the word of R130. -/
def execNop (x : Nibble) (s : State) : Host.Outcome State Fault Refusal := executeInstr (.nop x) s

/-- OUT (R211): `OUT <- A`, and its cycle returns `some(A)`, by the word of R139. -/
def execOut (x : Nibble) (s : State) : Host.Outcome State Fault Refusal := executeInstr (.out x) s

/-- HLT (R212): the machine is halted with `{HLT}` current at microstep 2; that word is never executed (R129, R140). -/
def execHlt (x : Nibble) (s : State) : Host.Outcome State Fault Refusal := executeInstr (.hlt x) s

end Sys2Proof.Machine
end

