-- ==== Sys2Proof/Machine/Dispatch.lean ====
section
/-!
DEFINITION. The dispatch: one arm per constructor of Instr, each a direct call of that instruction's meaning.
-/
namespace Sys2Proof.Machine

def exec (i : Instr) (s : State) : Host.Outcome State Fault Refusal :=
  match i with
  | .nop x => Sys2Proof.Machine.execNop x s
  | .lda k => Sys2Proof.Machine.execLda k s
  | .add k => Sys2Proof.Machine.execAdd k s
  | .sub k => Sys2Proof.Machine.execSub k s
  | .sta k => Sys2Proof.Machine.execSta k s
  | .ldi k => Sys2Proof.Machine.execLdi k s
  | .jmp k => Sys2Proof.Machine.execJmp k s
  | .jc k => Sys2Proof.Machine.execJc k s
  | .jz k => Sys2Proof.Machine.execJz k s
  | .out x => Sys2Proof.Machine.execOut x s
  | .hlt x => Sys2Proof.Machine.execHlt x s

end Sys2Proof.Machine
end

