-- ==== Sys2Proof/Machine/Step.lean ====
section
/-!
DEFINITION. One step of the model: one whole instruction, made of machine cycles (the spec's `step()` is one cycle and
is `Sys2Proof.Machine.cycle`, spec/00_scope.md R11, spec/42_machine_core.md R150).
-/
namespace Sys2Proof.Machine

/-- Run the instruction that the fetch has brought into `IR`. -/
def execFetched (s : State) : Host.Outcome State Fault Refusal :=
  match instrInIr s with
  | .ok i => exec i s
  | .error _ => raiseFault (.decodeError s.ir)

/-- One step. A faulted machine takes none (R162). A halted one does not change (R151). Between two instructions: the
universal fetch, then the fetched instruction to its end. Inside an instruction: the rest of it. -/
def step (s : State) : Host.Outcome State Fault Refusal :=
  match s.fault with
  | some f => raiseFault f
  | none =>
    if s.halted then .next s
    else if s.atBoundary then andThen (fetch s) execFetched
    else andThen (tick narrow s) (finish sequenceFuel)

/-- `s` with the instruction whose bits are `w` stored where `step` fetches next, so that the next step runs it. -/
def State.withFetchWord (s : State) (nbits w : Nat) : State := s.placeWord (BitVec.ofNat 8 (w % 2 ^ nbits))

end Sys2Proof.Machine
end

