-- ==== Sys2Proof/WellFormed.lean ====
section
/-!
DEFINITION. What is well formed: a variant record (spec/00_scope.md R7, R8, spec/41_microsequencer.md R128) and a
program image (spec/42_machine_core.md R165).

An instruction term needs no check: its operand is a `Nibble`, and every operand value is legal (spec/20_memory.md R55,
spec/45_instr_control.md R199).
-/
namespace Sys2Proof

open Sys2Proof.Machine

/-- `CAP` must be a power of two (R7). -/
def isPowerOfTwo (n : Nat) : Bool := n != 0 && (n &&& (n - 1)) == 0

/-- Check 2 of R128 for one word: not both `MI` and `RI`; a word with `HLT` may contain anything, since it is never
executed (R151). -/
def wordOk (w : CtrlWord) : Bool := w.hlt || !(w.mi && w.ri)

/-- A record is well formed (R8): `CAP` is a power of two, and the table passes the checks of R128 for every instruction
of the enumeration and every microstep, decodable and looked up or not (R121). -/
structure Variant.WellFormed {ι : Type} (V : Variant ι) : Prop where
  /-- R7. -/
  cap_powerOfTwo : isPowerOfTwo V.cap = true
  /-- R128 check 1, microstep 0. -/
  fetch0 : ∀ i, V.microcode i 0 = fetchAddress
  /-- R128 check 1, microstep 1. -/
  fetch1 : ∀ i, V.microcode i 1 = fetchOpcode
  /-- R128 check 2. -/
  words : ∀ i m, wordOk (V.microcode i m) = true

/-- The checks as a computation, for a record whose instructions a list gives and whose table has entries only below
`depth`: every later word is the empty one (R122), which passes check 2. -/
def Variant.check {ι : Type} (V : Variant ι) (instrs : List ι) (depth : Nat) : Bool :=
  isPowerOfTwo V.cap && instrs.all fun i =>
    decide (V.microcode i 0 = fetchAddress) && decide (V.microcode i 1 = fetchOpcode) &&
      (List.range depth).all fun m => wordOk (V.microcode i m)

/-- The computation decides well-formedness. -/
theorem Variant.check_iff {ι : Type} {V : Variant ι} {instrs : List ι} {depth : Nat} (hall : ∀ i, i ∈ instrs)
    (hempty : ∀ i m, depth ≤ m → V.microcode i m = CtrlWord.empty) : V.check instrs depth = true ↔ V.WellFormed := by
  simp only [Variant.check, Bool.and_eq_true, List.all_eq_true, decide_eq_true_eq, List.mem_range]
  constructor
  · rintro ⟨hcap, htable⟩
    refine ⟨hcap, fun i => (htable i (hall i)).1.1, fun i => (htable i (hall i)).1.2, fun i m => ?_⟩
    rcases Nat.lt_or_ge m depth with hm | hm
    · exact (htable i (hall i)).2 m hm
    · rw [hempty i m hm]; rfl
  · intro h
    exact ⟨h.cap_powerOfTwo, fun i _ => ⟨⟨h.fetch0 i, h.fetch1 i⟩, fun m _ => h.words i m⟩⟩

/-- The decision of R8 for a finite table, by the computation. -/
def Variant.decideWellFormed {ι : Type} (V : Variant ι) (instrs : List ι) (depth : Nat) (hall : ∀ i, i ∈ instrs)
    (hempty : ∀ i m, depth ≤ m → V.microcode i m = CtrlWord.empty) : Decidable V.WellFormed :=
  decidable_of_iff (V.check instrs depth = true) (Variant.check_iff hall hempty)

/-- A program image fits the memory (R165, R232): `len(bytes) = CAP` is legal. -/
def Variant.imageFits {ι : Type} (V : Variant ι) (bytes : List Byte) : Bool := decide (bytes.length ≤ V.cap)

end Sys2Proof
end

