-- ==== Sys2Proof/Machine/Run.lean ====
section
/-!
DEFINITION. The host interface of the core: construction, program load, halt query and run (spec/42_machine_core.md
R165-R168, spec/70_reset_and_hazards.md R260-R263).
-/
namespace Sys2Proof.Machine

/-- `new()` for a variant record (R260): an ill-formed record is refused before any cycle (R8, D9). The checks range over
every instruction and every microstep, so a record comes with their decision (`Variant.decideWellFormed` computes it for a
finite table). -/
def construct {ι : Type} (V : Variant ι) [Decidable V.WellFormed] : Host.Outcome State Fault Refusal :=
  if V.WellFormed then .next State.reset else .refused .illFormedVariant

/-- `setInput(bytes)` (R165): only on a freshly constructed machine (D25); too long an image faults before any byte is
copied (R232). It touches nothing but memory. -/
def setInput {ι : Type} (V : Variant ι) (bytes : List Byte) (s : State) : Host.Outcome State Fault Refusal :=
  match s.fault with
  | some f => raiseFault f
  | none =>
    if !s.fresh then .refused .inputAfterStart
    else if V.imageFits bytes then .next { s with mem := loadBytes 0 bytes s.mem, fresh := false }
    else raiseFault (.inputTooLong bytes.length)

/-- The boot sequence of R263 up to the first cycle: construct, then load the image once. -/
def boot {ι : Type} (V : Variant ι) [Decidable V.WellFormed] (bytes : List Byte) : Host.Outcome State Fault Refusal :=
  andThen (construct V) (setInput V bytes)

/-- The machine the caller holds after a call of the interface: a fault of any kind is put into the fault record (R33,
R230), and a refused call leaves the machine as it was. -/
def State.heldAfter (s : State) (o : Host.Outcome State Fault Refusal) : State :=
  match o with
  | .next t => t
  | .fault f => s.recordFault f
  | .refused _ => s

/-- The machine after a call of `setInput`: with too long an image it "is then faulted and cannot be run" (R232). -/
def setInputHeld {ι : Type} (V : Variant ι) (bytes : List Byte) (s : State) : State :=
  s.heldAfter (setInput V bytes s)

/-- The machine after a call of the spec's `step()` (R162). -/
def cycleHeld {ι : Type} (V : Variant ι) (s : State) : State := s.heldAfter (tick V s)

/-- `isHalted()` (R167). -/
def isHalted (s : State) : Bool := s.halted

/-- How a run ends (R168). -/
inductive RunEnd where
  /-- The current control word carries `HLT`: the normal end. -/
  | halted
  /-- A fault was raised: the error end (R166, D26). -/
  | faulted (f : Fault)
  /-- The caller's own bound on cycles is used up: `run()` itself has none (R166, R271). -/
  | outOfFuel
  /-- The model refuses the cycle; no well-formed variant does this. -/
  | refused (r : Refusal)
deriving DecidableEq, Repr

/-- What `run()` returns: the outputs it collected, how it ended and the final state (R166, R168). -/
structure RunResult where
  outs : List Byte
  ended : RunEnd
  final : State
deriving DecidableEq, Repr

/-- `run()` under the caller's bound of `n` cycles (R166): the halt test comes before each cycle, and a fault ends the
run with the outputs so far and the fault recorded (D26). -/
def run {ι : Type} (V : Variant ι) : Nat → State → RunResult
  | 0, s => { outs := [], ended := if s.halted then .halted else .outOfFuel, final := s }
  | n + 1, s =>
    if s.halted then { outs := [], ended := .halted, final := s }
    else
      match cycle V s with
      | .next (t, o) =>
        let rest := run V n t
        { rest with outs := o.toList ++ rest.outs }
      | .fault f => { outs := [], ended := .faulted f, final := cycleHeld V s }
      | .refused r => { outs := [], ended := .refused r, final := cycleHeld V s }

end Sys2Proof.Machine
end

