-- ==== Sys2Proof/Safety.lean ====
section
/-!
DEFINITION. What counts as a good state and a safe run, in the terms the claims use (spec/42_machine_core.md R163,
spec/41_microsequencer.md R127, spec/60_exceptions.md R233).
-/
namespace Sys2Proof.Machine

/-- The control invariant of R163, for any variant, and the decodability of `IR` that every completed cycle leaves
(R159). -/
structure ControlInv {ι : Type} (V : Variant ι) (s : State) : Prop where
  mstep_le : s.mstep ≤ V.bound
  pc_lt : s.pc.toNat < V.cap
  ctrl_fetch : s.mstep = 0 → s.ctrl = fetchAddress
  ctrl_table : ∃ i, V.decode s.ir = .ok i ∧ (1 ≤ s.mstep → s.ctrl = V.microcode i s.mstep)

/-- Memory is in canonical form and lists no address outside the array (R34, R50). -/
structure MemoryInv {ι : Type} (V : Variant ι) (s : State) : Prop where
  canonical : s.mem.wf = true
  in_range : s.mem.below V.cap = true

/-- The last microstep an instruction of the reference table is ever at (R141). -/
def lastMstep (i : Instr) : Nat := (executeWords i).length + 1

/-- The invariant of the `Narrow` reference machine: R163, memory, `MAR` inside the array, which makes the address fault
unreachable (R233), and a microstep inside the instruction's sequence, which keeps `boundReset` clear (R127). -/
structure NarrowInv (s : State) : Prop where
  control : ControlInv narrow s
  memory : MemoryInv narrow s
  mar_lt : s.mar.toNat < narrow.cap
  in_sequence : ∀ i, narrow.decode s.ir = .ok i → s.mstep ≤ lastMstep i
  no_fault : s.fault = none
  no_boundReset : s.boundReset = false

/-- The state the universal fetch of instruction `i` leaves (R123, R164): `MAR` holds the fetch address, `IR` the byte,
`PC` is one further, the pending flags are the adder's of `A` and `B` in add mode, and the first execute word is
current. -/
def afterFetch (i : Instr) (s : State) : State :=
  { s with
    mar := s.pc
    ir := encode i
    pc := nextPc narrow s.pc
    pending := adderFlags s.a s.b false
    mstep := 2
    ctrl := microcode i 2
    fresh := false }

/-- The cycle counts of R270, the two fetch cycles included. -/
def cycleCount : Instr → Nat
  | .nop _ | .ldi _ | .jmp _ | .jc _ | .jz _ | .out _ => 3
  | .lda _ | .sta _ => 4
  | .add _ | .sub _ => 5
  | .hlt _ => 2

/-- Every register outside a list holds after what it held before. -/
def regsKept (changed : List Reg) (s t : State) : Prop := ∀ r, r ∉ changed → t.reg r = s.reg r

/-- Every byte of memory reads after as it read before. -/
def memoryKept (s t : State) : Prop := ∀ x, t.mem.read x = s.mem.read x

end Sys2Proof.Machine
end

