-- ==== Sys2Proof/Certificates/Slice0/Obligations.lean ====
section
/-!
DEFINITION. The statements for the provers, in the order of the spec's files: reset and the host interface, the decoder,
the bus and the adder, the cycle's phases, the microsequencer, the instructions, their frames, and the whole machine.
-/

open Sys2Proof Sys2Proof.Machine

/-! ### Reset and the host interface -/

/-- spec/10_state.md section 6: construction leaves every register, every memory byte and both flag pairs 0, the
control word `CO|MI`, the counter 0, the machine not halted, no fault and no bound mark. The pending flags' 0 is the
spec's decision D14 (log 4); `fault` and `boundReset` are the spec's bookkeeping (D12, D13); `outputs`, empty, and
`fresh`, true, are the model's own records (log 14, log 15). The canonical form is the model's own representation of
the byte array and no rule of the spec (log 3). -/
def Obligations.ResetState : Prop :=
  (∀ r, State.reset.reg r = 0) ∧ (∀ x, State.reset.mem.read x = 0) ∧ State.reset.mem.wf = true ∧
  State.reset.flags = { z := false, c := false } ∧ State.reset.pending = { z := false, c := false } ∧
  State.reset.ctrl = { co := true, mi := true } ∧ State.reset.mstep = 0 ∧ isHalted State.reset = false ∧
  State.reset.fault = none ∧ State.reset.boundReset = false ∧ State.reset.outputs = [] ∧ State.reset.fresh = true

/-- spec/00_scope.md R7, R8, spec/41_microsequencer.md R128 (decisions D8, D9, D22; log 9, log 11, log 16): a record whose
`CAP` is a power of two and whose table has the fetch words and no word of `MI` and `RI` without `HLT`, for every
instruction and every microstep, constructs a fresh machine; a record that misses one of these is refused before any
cycle. -/
def Obligations.ConstructRefusesIllFormedRecords : Prop :=
  ∀ (ι : Type) (V : Variant ι) [Decidable V.WellFormed],
    ((∃ n, V.cap = 2 ^ n) →
      (∀ i, V.microcode i 0 = { co := true, mi := true } ∧
        V.microcode i 1 = { ro := true, ii := true, ce := true }) →
      (∀ i m, (V.microcode i m).hlt = false → ¬ ((V.microcode i m).mi = true ∧ (V.microcode i m).ri = true)) →
      construct V = .next State.reset) ∧
    ((¬ ∃ n, V.cap = 2 ^ n) → construct V = .refused .illFormedVariant) ∧
    (∀ i,
      (V.microcode i 0 ≠ { co := true, mi := true } ∨ V.microcode i 1 ≠ { ro := true, ii := true, ce := true } ∨
        ∃ m, (V.microcode i m).hlt = false ∧ (V.microcode i m).mi = true ∧ (V.microcode i m).ri = true) →
      construct V = .refused .illFormedVariant)

/-- spec/42_machine_core.md R165, spec/60_exceptions.md R232 (decision D25; log 14): an image that fits is at addresses
0 to len-1 of a fresh machine and nothing else changes but the model's record `fresh`; a longer one faults with its
length; a machine that is not fresh refuses. The canonical form is the model's own representation of the byte array and
no rule of the spec (log 3). -/
def Obligations.SetInputLoadsFreshMachine : Prop :=
  ∀ (ι : Type) (V : Variant ι) (bytes : List Byte) (s : State), s.fault = none → s.mem.wf = true →
    (s.fresh = true → bytes.length ≤ V.cap →
      ∃ m, setInput V bytes s = .next { s with mem := m, fresh := false } ∧ m.wf = true ∧
        ∀ x, m.read x = if x < bytes.length then bytes.getD x 0 else s.mem.read x) ∧
    (s.fresh = true → V.cap < bytes.length → setInput V bytes s = .fault (.inputTooLong bytes.length)) ∧
    (s.fresh = false → setInput V bytes s = .refused .inputAfterStart)

/-- spec/42_machine_core.md R166, R168 (decision D26; log 13, log 15): `run` makes some number `k` of cycles, none of
them from a halted machine, and its outputs are what these cycles returned, in order (each cycle adds what it returns
to the model's record `outputs`). It ends halted on the halted machine they lead to; out of the caller's fuel after all
`n` of them; or with the fault of the next cycle, recorded, or its refusal. On a halted machine it returns no output at
once, and once it has ended more fuel changes nothing. Of the machine after a fault the spec lets only the fault record
be claimed (R162, D12; 93_implementation_defined.md U15): that `run` hands back the state before the faulting cycle
with that record set, every other field kept, is the model's own choice (log 13), and only `final.fault = some f` is
the spec's. -/
def Obligations.RunCollectsOutputsInOrder : Prop :=
  ∀ (ι : Type) (V : Variant ι) (n : Nat) (s : State),
    (∀ t o, cycle V s = .next (t, o) → t.outputs = s.outputs ++ o.toList) ∧
    (∃ k t, k ≤ n ∧ cycles V k s = .next t ∧ t.outputs = s.outputs ++ (run V n s).outs ∧
      (∀ j u, j < k → cycles V j s = .next u → isHalted u = false) ∧
      match (run V n s).ended with
      | .halted => isHalted t = true ∧ (run V n s).final = t
      | .outOfFuel => k = n ∧ isHalted t = false ∧ (run V n s).final = t
      | .faulted f => k < n ∧ isHalted t = false ∧ cycle V t = .fault f ∧ (run V n s).final = t.recordFault f ∧
          (run V n s).final.fault = some f
      | .refused e => k < n ∧ isHalted t = false ∧ cycle V t = .refused e ∧ (run V n s).final = t) ∧
    (isHalted s = true → run V n s = { outs := [], ended := .halted, final := s }) ∧
    ((run V n s).ended ≠ .outOfFuel → ∀ m, run V (n + m) s = run V n s)

/-- spec/60_exceptions.md R230, R232, spec/10_state.md R33 (decisions D12, D25; log 13, log 14): every fault is put
into the fault record of the machine the caller holds, the one of `setInput` too, which leaves memory as it was; the
record is sticky, and a machine that has one takes no cycle and no image. That a failing `setInput` leaves memory as it
was is R165's own "memory unchanged"; that the record is put into the machine as it was before the call is the model's
own choice (log 13). -/
def Obligations.EveryFaultIsRecorded : Prop :=
  ∀ (ι : Type) (V : Variant ι) (bytes : List Byte) (s : State),
    (s.fault = none → s.fresh = true → V.cap < bytes.length →
      (setInputHeld V bytes s).fault = some (.inputTooLong bytes.length) ∧ (setInputHeld V bytes s).mem = s.mem ∧
      cycle V (setInputHeld V bytes s) = .fault (.inputTooLong bytes.length)) ∧
    (∀ f, cycle V s = .fault f → (cycleHeld V s).fault = some f ∧ cycle V (cycleHeld V s) = .fault f) ∧
    (∀ f, s.fault = some f → (cycleHeld V s).fault = some f ∧ (setInputHeld V bytes s).fault = some f ∧
      setInput V bytes s = .fault f)

/-- spec/00_scope.md section 3 (decisions D4, D5, D6, D7, D8; log 8, log 9, log 17): the parameters of the three variants,
and what they make of the program counter: `Narrow` and `ExtendedNarrow` count and jump modulo 16, `Wide` modulo 256. -/
def Obligations.VariantParameters : Prop :=
  (narrow.cap = 16 ∧ narrow.opMask = 0x0F ∧ narrow.bound = 5) ∧
  (∀ (ι : Type) (opcodes : Nibble → Option ι) (table : ι → Nat → CtrlWord) (v : Byte),
    (extendedNarrow opcodes table).cap = 16 ∧ (extendedNarrow opcodes table).opMask = 0x0F ∧
    (extendedNarrow opcodes table).bound = 5 ∧ (extendedNarrow opcodes table).microcode = table ∧
    (nextPc (extendedNarrow opcodes table) v).toNat = (v.toNat + 1) % 16 ∧
    (jumpTarget (extendedNarrow opcodes table) v).toNat = v.toNat % 16) ∧
  (∀ (ι : Type) (mask : Byte) (dec : Byte → Except DecodeError ι) (table : ι → Nat → CtrlWord) (v : Byte),
    (wide mask dec table).cap = 256 ∧ (wide mask dec table).opMask = mask ∧ (wide mask dec table).bound = 5 ∧
    (wide mask dec table).decode = dec ∧ (wide mask dec table).microcode = table ∧
    (nextPc (wide mask dec table) v).toNat = (v.toNat + 1) % 256 ∧ jumpTarget (wide mask dec table) v = v) ∧
  ∀ v : Byte, (nextPc narrow v).toNat = (v.toNat + 1) % 16 ∧ (jumpTarget narrow v).toNat = v.toNat % 16

/-! ### The decoder -/

/-- spec/30_encoding.md section 2 (the reference map, decision D2; log 2): decoding the byte of an instruction gives it
back, for every instruction and every operand. That NOP, OUT and HLT carry the nibble the spec has ignored (R78) is the
model's own choice (log 18). -/
def Obligations.DecodeOfEncode : Prop := ∀ i : Instr, decode (encode i) = .ok i

/-- spec/30_encoding.md section 2 (decision D2; log 2): a byte that decodes is the byte of the instruction it decodes to,
so two bytes never decode to one term of `Instr`. For NOP, OUT and HLT this is the model's own choice, since their terms carry
the nibble (log 18): in the spec all 16 bytes of each are one instruction (R78). -/
def Obligations.EncodeOfDecode : Prop := ∀ (b : Byte) (i : Instr), decode b = .ok i → encode i = b

/-- spec/30_encoding.md section 2 and spec/60_exceptions.md section 1 (decision D2; log 2): exactly the bytes 0x90..0xDF
fail to decode, each by name. -/
def Obligations.UndefinedOpcodesFail : Prop :=
  ∀ b : Byte, if 0x90 ≤ b.toNat ∧ b.toNat ≤ 0xDF then decode b = .error (.undefinedOpcode b)
    else ∃ i, decode b = .ok i

/-- Six words of the decoder's table, from spec/95_test_vectors.md V-DEC: 0x00 is NOP, 0x1E LDA 14, 0x2F ADD 15, 0x4D STA 13,
0x70 JC 0, 0xE7 OUT with the ignored bits 7 (decision D2; log 2). That the terms of NOP and OUT carry the ignored bits is the
model's own choice (log 18). -/
def Obligations.DecodedWordsOfTheTable : Prop :=
  decode 0x00 = .ok (.nop 0) ∧ decode 0x1E = .ok (.lda 14) ∧ decode 0x2F = .ok (.add 15) ∧
  decode 0x4D = .ok (.sta 13) ∧ decode 0x70 = .ok (.jc 0) ∧ decode 0xE7 = .ok (.out 7)

/-- spec/30_encoding.md section 2 (decision D17; log 2, log 17): the decoder looks only at `IR[7:4]`. In `Narrow`, two
bytes with one opcode field both decode or both fail, and run one row of the microcode; in `ExtendedNarrow`, whatever
its opcodes and microcode, they decode to one instruction or both fail. -/
def Obligations.OperandNeverSelectsMicrocode : Prop :=
  ∀ b c : Byte, opcodeField b = opcodeField c →
    ((∃ i, decode b = .ok i) ↔ (∃ j, decode c = .ok j)) ∧
    (∀ i j, decode b = .ok i → decode c = .ok j → ∀ m, narrow.microcode i m = narrow.microcode j m) ∧
    ∀ (ι : Type) (opcodes : Nibble → Option ι) (table : ι → Nat → CtrlWord) (i : ι),
      (extendedNarrow opcodes table).decode b = .ok i ↔ (extendedNarrow opcodes table).decode c = .ok i

/-- spec/30_encoding.md section 3 (R82, decision D18; log 21): bit n of the 20-bit word is the signal of row n, and the
word determines the control word. -/
def Obligations.ControlWordBits : Prop :=
  ∀ w : CtrlWord, (∀ g, w.toBits.getLsbD g.bit = w.has g) ∧ CtrlWord.ofBits w.toBits = w

/-! ### The bus and the adder -/

/-- R101 and R108: the bus is the wired OR of every enabled driver, bit by bit, starting from 0, however many drive. -/
def Obligations.BusIsWiredOr : Prop :=
  ∀ (ι : Type) (V : Variant ι) (s : State), (s.ctrl.ro = true → s.mar.toNat < V.cap) →
    ∃ r, resolve V s = .ok r ∧ ∀ n,
      r.bus.getLsbD n =
        ((s.ctrl.co && s.pc.getLsbD n) || (s.ctrl.ao && s.a.getLsbD n) || (s.ctrl.bo && s.b.getLsbD n) ||
         (s.ctrl.io && (s.ir.getLsbD n && V.opMask.getLsbD n)) ||
         (s.ctrl.ro && (s.mem.read s.mar.toNat).getLsbD n) ||
         (s.ctrl.eo && (if s.ctrl.su then s.a - s.b else s.a + s.b).getLsbD n))

/-- R102: instruction-out alone puts `IR & OPMASK` on the bus, in `Narrow` the low nibble widened with zeros. -/
def Obligations.InstructionOutDrivesOperandBits : Prop :=
  (∀ (ι : Type) (V : Variant ι) (s : State), s.ctrl = { io := true } →
    ∃ r, resolve V s = .ok r ∧ r.bus = s.ir &&& V.opMask) ∧
  ∀ s : State, s.ctrl = { io := true } → ∃ r, resolve narrow s = .ok r ∧ r.bus.toNat = s.ir.toNat % 16

/-- R104: adder-out puts `A + B` or, with `SU`, `A - B` on the bus, modulo 256, of the values at the start of the
cycle. -/
def Obligations.AdderWrapsModulo256 : Prop :=
  ∀ (ι : Type) (V : Variant ι) (s : State) (su : Bool), s.ctrl = { eo := true, su := su } →
    ∃ r, resolve V s = .ok r ∧
      (r.bus.toNat : Int) = (if su then (s.a.toNat : Int) - s.b.toNat else (s.a.toNat : Int) + s.b.toNat) % 256

/-- R106: the Zero output is set exactly when the 8-bit wrapped value is 0, in both modes; 0x80 + 0x80 sets Zero and
Carry. -/
def Obligations.ZeroOutputOfWrappedValue : Prop :=
  (∀ a b : Byte, ((adderFlags a b false).z = true ↔ (a.toNat + b.toNat) % 256 = 0) ∧
    ((adderFlags a b true).z = true ↔ ((a.toNat : Int) - b.toNat) % 256 = 0)) ∧
  adderFlags 0x80 0x80 false = { z := true, c := true }

/-- spec/40_bus_resolver_alu.md section 3: Carry is the overflow of an add and the borrow of a subtract. That a borrow
sets it is the spec's decision D20 (log 6). -/
def Obligations.CarryOutputOfOverflowOrBorrow : Prop :=
  ∀ a b : Byte, ((adderFlags a b false).c = true ↔ 256 ≤ a.toNat + b.toNat) ∧
    ((adderFlags a b true).c = true ↔ a.toNat < b.toNat)

/-! ### The phases of a cycle -/

/-- spec/42_machine_core.md section 1 and spec/40_bus_resolver_alu.md section 3: every running cycle leaves in the pending
flags the adder's outputs of its start-of-cycle `A`, `B` and `SU`. That it does so in every cycle is the spec's decision
D11 (log 5). -/
def Obligations.PendingFlagsEveryCycle : Prop :=
  ∀ (ι : Type) (V : Variant ι) (s t : State) (o : Option Byte), cycle V s = .next (t, o) → s.ctrl.hlt = false →
    t.pending = adderFlags s.a s.b s.ctrl.su

/-- R155: with `FI` both latched flags take the pending flags as they stood at the start of the cycle; without it they
are unchanged. -/
def Obligations.FlagCommitTakesOldPending : Prop :=
  ∀ (ι : Type) (V : Variant ι) (s t : State) (o : Option Byte), cycle V s = .next (t, o) → s.ctrl.hlt = false →
    t.flags = if s.ctrl.fi then s.pending else s.flags

/-- spec/10_state.md section 2: the latched flags are written only with `FI`, together, from the pending flags; they are
read only by the jump condition, `Z` by `JZ` and `C` by `JC`; and they never reach the bus. That the jump tests the flags
just committed in its own cycle is the spec's derivation (R157), and that the target is `bus & (CAP - 1)` its decision D8
(log 9). -/
def Obligations.LatchedFlagsReadOnlyByJumps : Prop :=
  ∀ (ι : Type) (V : Variant ι) (s t : State) (o : Option Byte) (fl : Flags), cycle V s = .next (t, o) →
    s.ctrl.hlt = false →
    t.flags = (if s.ctrl.fi then s.pending else s.flags) ∧
    resolve V { s with flags := fl } = resolve V s ∧
    (s.ctrl.j = false → s.ctrl.ce = false → ∃ r, resolve V s = .ok r ∧
      t.pc = if (s.ctrl.jz = true ∧ t.flags.z = true) ∨ (s.ctrl.jc = true ∧ t.flags.c = true) then jumpTarget V r.bus
        else s.pc) ∧
    (s.ctrl.jz = false → s.ctrl.jc = false →
      cycle V { s with flags := fl } = .next ({ t with flags := if s.ctrl.fi then s.pending else fl }, o))

/-- R161: a running cycle returns the bus exactly when `OI` is asserted, else none. -/
def Obligations.OutputReturnedExactlyWithOi : Prop :=
  ∀ (ι : Type) (V : Variant ι) (s t : State) (o : Option Byte), cycle V s = .next (t, o) → s.ctrl.hlt = false →
    ∃ r, resolve V s = .ok r ∧ o = if s.ctrl.oi then some r.bus else none

/-- R25: `OI` writes the bus into `OUT` and the cycle returns that value; nothing reads `OUT` back: with another value in
`OUT` the cycle does the same in everything else. -/
def Obligations.OutputLatchIsWriteOnly : Prop :=
  ∀ (ι : Type) (V : Variant ι) (s : State) (v : Byte),
    (∀ t o, cycle V s = .next (t, o) → s.ctrl.hlt = false →
      cycle V { s with out := v } = .next ({ t with out := if s.ctrl.oi then t.out else v }, o) ∧
      (∃ r, resolve V s = .ok r ∧ (s.ctrl.oi = true → t.out = r.bus ∧ o = some r.bus)) ∧
      (s.ctrl.oi = false → t.out = s.out)) ∧
    (∀ f, cycle V s = .fault f → cycle V { s with out := v } = .fault f)

/-- spec/42_machine_core.md section 1 (R153 with the spec's range check D15; log 10): every enabled latch takes the one
bus value of the cycle and every other register but `PC` is unchanged. -/
def Obligations.LatchesTakeTheBus : Prop :=
  ∀ (ι : Type) (V : Variant ι) (s t : State) (o : Option Byte), cycle V s = .next (t, o) → s.ctrl.hlt = false →
    ∃ r, resolve V s = .ok r ∧
      t.mar = (if s.ctrl.mi then r.bus else s.mar) ∧ t.out = (if s.ctrl.oi then r.bus else s.out) ∧
      t.a = (if s.ctrl.ai then r.bus else s.a) ∧ t.b = (if s.ctrl.bi then r.bus else s.b) ∧
      t.ir = (if s.ctrl.ii then r.bus else s.ir)

/-- R51: memory-out reads the byte at `MAR`, memory-in writes the bus there, and memory is addressed in no other way: no
other byte changes, and no other byte reaches the bus. -/
def Obligations.MemoryOnlyThroughMar : Prop :=
  ∀ (ι : Type) (V : Variant ι) (s : State), s.mem.wf = true →
    (s.ctrl = { ro := true } → s.mar.toNat < V.cap →
      ∃ r, resolve V s = .ok r ∧ r.bus = s.mem.read s.mar.toNat) ∧
    (∀ m : Memory, m.read s.mar.toNat = s.mem.read s.mar.toNat → resolve V { s with mem := m } = resolve V s) ∧
    (∀ t o, cycle V s = .next (t, o) → s.ctrl.hlt = false → ∃ r, resolve V s = .ok r ∧
      ∀ x, t.mem.read x = if s.ctrl.ri = true ∧ x = s.mar.toNat then r.bus else s.mem.read x)

/-- spec/20_memory.md section 2: memory changes only by `RI`, and by `setInput` before the first cycle. That `setInput` is
admitted only then is the spec's decision D25, and the field `fresh` that says so the model's own (log 14). -/
def Obligations.MemoryChangesOnlyByStoreOrLoad : Prop :=
  ∀ (ι : Type) (V : Variant ι) (s : State),
    (∀ t o, cycle V s = .next (t, o) → s.ctrl.ri = false → t.mem = s.mem) ∧
    (∀ t o, cycle V s = .next (t, o) → s.ctrl.hlt = false → t.fresh = false) ∧
    (∀ bytes t, setInput V bytes s = .next t → s.fresh = true)

/-- spec/20_memory.md R53 and spec/60_exceptions.md R235 (decision D15; log 10): a memory access with `MAR` outside the
array faults with the `MAR` value, before any decode failure of the cycle, whatever else the word holds. Only a word of
both `MI` and `RI`, which no table may hold (decision D22; log 11), is left out. -/
def Obligations.AddressOutOfRangeFaults : Prop :=
  ∀ (ι : Type) (V : Variant ι) (s : State), s.fault = none → s.ctrl.hlt = false →
    ¬ (s.ctrl.mi = true ∧ s.ctrl.ri = true) → (s.ctrl.ro = true ∨ s.ctrl.ri = true) → V.cap ≤ s.mar.toNat →
    cycle V s = .fault (.memoryAddressOutOfRange s.mar)

/-- spec/42_machine_core.md R159 and spec/60_exceptions.md R231 (the range premises are the spec's decision D15, log 10,
the premise on `MI` and `RI` D22, log 11, and the reset clause D9): in any cycle of any variant, whatever its word,
whose memory access is in range, the byte `IR` holds after the write decides: if it does not decode, the cycle ends in
`DecodeError` with it, else the cycle completes with it in `IR`. So a constructed machine whose `Decode` fails on 0
faults in its first cycle. -/
def Obligations.UndecodableIrFaults : Prop :=
  ∀ (ι : Type) (V : Variant ι),
    (∀ s : State, s.fault = none → s.ctrl.hlt = false → ¬ (s.ctrl.mi = true ∧ s.ctrl.ri = true) →
      (s.ctrl.ro = true ∨ s.ctrl.ri = true → s.mar.toNat < V.cap) →
      ∃ r, resolve V s = .ok r ∧
        (∀ e, V.decode (if s.ctrl.ii then r.bus else s.ir) = .error e →
          cycle V s = .fault (.decodeError (if s.ctrl.ii then r.bus else s.ir))) ∧
        (∀ i, V.decode (if s.ctrl.ii then r.bus else s.ir) = .ok i →
          ∃ t o, cycle V s = .next (t, o) ∧ t.ir = if s.ctrl.ii then r.bus else s.ir)) ∧
    ∀ e, V.decode 0 = .error e → cycle V State.reset = .fault (.decodeError 0)

/-- spec/42_machine_core.md section 1 (the jump after the commit and before the increment is the spec's derivation from
the phase order): the program counter after a running cycle, as numbers. -/
def Obligations.ProgramCounterAfterCycle : Prop :=
  ∀ (ι : Type) (V : Variant ι) (s t : State) (o : Option Byte), V.WellFormed → V.cap ≤ 256 →
    cycle V s = .next (t, o) → s.ctrl.hlt = false → ∃ r, resolve V s = .ok r ∧
      t.pc.toNat =
        (let jumped := if s.ctrl.j = true ∨ (s.ctrl.jz = true ∧ t.flags.z = true) ∨
            (s.ctrl.jc = true ∧ t.flags.c = true) then r.bus.toNat % V.cap else s.pc.toNat
         if s.ctrl.ce then (jumped + 1) % V.cap else jumped)

/-- spec/42_machine_core.md section 1 (the reading of `RST` and of the lookup is the spec's decision D21, the bound and
its mark are D7 and D13; log 7, log 8): the next microstep, the next control word and the mark. -/
def Obligations.AdvanceChoosesNextWord : Prop :=
  ∀ (ι : Type) (V : Variant ι) (s t : State) (o : Option Byte), cycle V s = .next (t, o) → s.ctrl.hlt = false →
    ∃ i, V.decode t.ir = .ok i ∧ t.ctrl = V.microcode i t.mstep ∧
      (if s.ctrl.rst then t.mstep = 0 ∧ t.boundReset = s.boundReset
       else if V.bound < s.mstep + 1 then t.mstep = 0 ∧ t.boundReset = true
       else t.mstep = s.mstep + 1 ∧ t.boundReset = s.boundReset)

/-- spec/42_machine_core.md R151 (decisions D23, D24; log 12): a cycle of a halted machine returns none and changes
nothing, and so does a step. -/
def Obligations.HaltedMachineNeverChanges : Prop :=
  ∀ (ι : Type) (V : Variant ι) (s : State), s.fault = none → s.ctrl.hlt = true →
    cycle V s = .next (s, none) ∧ step s = .next s ∧ ∀ n, cycles V n s = .next s

/-- R32: halted is exactly "the current control word carries `HLT`", and once true no number of cycles clears it. -/
def Obligations.HaltedIsForever : Prop :=
  ∀ (ι : Type) (V : Variant ι) (s : State), isHalted s = s.ctrl.has .hlt ∧
    ∀ n t, isHalted s = true → cycles V n s = .next t → isHalted t = true

/-- spec/42_machine_core.md R162 (decision D12; log 13): a machine with a recorded fault takes no further cycle. -/
def Obligations.FaultedMachineTakesNoCycle : Prop :=
  ∀ (ι : Type) (V : Variant ι) (s : State) (f : Fault), s.fault = some f →
    cycle V s = .fault f ∧ step s = .fault f ∧ ∀ i, exec i s = .fault f

/-! ### The microsequencer -/

/-- spec/41_microsequencer.md R123 and spec/42_machine_core.md R164: in every well-formed variant (R128 with the
decisions D8, D22; log 9, log 11) microsteps 0 and 1 are the universal fetch for every instruction, and the reference
instance is one (D3; log 2); the first cycle points `MAR` at the next instruction, the second brings its byte into `IR`
and advances `PC`, and the counter is then 2. The word then current is the table's at microstep 2 (D21; log 7). The
first cycle's decode reads the old `IR` (log 19), the second one the new byte; both must decode for the two cycles to
complete. -/
def Obligations.UniversalFetch : Prop :=
  narrow.WellFormed ∧
  ∀ (ι : Type) (V : Variant ι), V.WellFormed →
    (∀ i, V.microcode i 0 = { co := true, mi := true } ∧ V.microcode i 1 = { ro := true, ii := true, ce := true }) ∧
    ∀ (s : State) (j i : ι), 2 ≤ V.bound → s.fault = none → s.mstep = 0 →
      s.ctrl = { co := true, mi := true } → s.pc.toNat < V.cap → V.decode s.ir = .ok j →
      V.decode (s.mem.read s.pc.toNat) = .ok i →
      (∃ t, cycles V 1 s = .next t ∧ t.mar = s.pc ∧ t.pc = s.pc ∧ t.ir = s.ir ∧ t.mstep = 1 ∧
        t.ctrl = { ro := true, ii := true, ce := true }) ∧
      ∃ t, cycles V 2 s = .next t ∧ t.ir = s.mem.read s.pc.toNat ∧ t.pc = BitVec.ofNat 8 ((s.pc.toNat + 1) % V.cap) ∧
        t.mar = s.pc ∧ t.mstep = 2 ∧ t.ctrl = V.microcode i 2 ∧ t.a = s.a ∧ t.b = s.b ∧ t.out = s.out ∧
        t.flags = s.flags ∧ t.mem = s.mem

/-- spec/41_microsequencer.md R122: an entry missing from the table, here the reference one (D3; log 2), is the empty
word; a cycle of the empty word drives nothing, latches nothing and advances the counter only, while the adder's flags
still move into the pending flags. It is no fault. The lookup at the advanced microstep is the spec's decision D21 (log
7), the bound and its mark D7 and D13 (log 8), the update of the pending flags D11 (log 5), and `fresh` is the model's
own field (log 14). -/
def Obligations.MissingEntryIsEmptyWord : Prop :=
  (∀ (i : Instr) (m : Nat), (executeWords i).length + 2 ≤ m → narrow.microcode i m = {}) ∧
  ∀ (ι : Type) (V : Variant ι) (s : State) (i : ι), s.fault = none → s.ctrl = {} → V.decode s.ir = .ok i →
    cycle V s = .next
      ({ s with
          pending := adderFlags s.a s.b false
          mstep := if s.mstep < V.bound then s.mstep + 1 else 0
          ctrl := V.microcode i (if s.mstep < V.bound then s.mstep + 1 else 0)
          boundReset := s.boundReset || decide (V.bound ≤ s.mstep)
          fresh := false }, none)

/-- spec/41_microsequencer.md section 4 (the reference microcode, decision D3; log 2): the execute words of every row,
microstep by microstep. -/
def Obligations.ReferenceMicrocode : Prop :=
  ∀ k : Nibble,
    narrow.microcode (.nop k) 2 = { rst := true } ∧
    narrow.microcode (.lda k) 2 = { io := true, mi := true } ∧
    narrow.microcode (.lda k) 3 = { ro := true, ai := true, rst := true } ∧
    narrow.microcode (.add k) 2 = { io := true, mi := true } ∧
    narrow.microcode (.add k) 3 = { ro := true, bi := true } ∧
    narrow.microcode (.add k) 4 = { eo := true, ai := true, fi := true, rst := true } ∧
    narrow.microcode (.sub k) 2 = { io := true, mi := true } ∧
    narrow.microcode (.sub k) 3 = { ro := true, bi := true } ∧
    narrow.microcode (.sub k) 4 = { eo := true, ai := true, su := true, fi := true, rst := true } ∧
    narrow.microcode (.sta k) 2 = { io := true, mi := true } ∧
    narrow.microcode (.sta k) 3 = { ao := true, ri := true, rst := true } ∧
    narrow.microcode (.ldi k) 2 = { io := true, ai := true, rst := true } ∧
    narrow.microcode (.jmp k) 2 = { io := true, j := true, rst := true } ∧
    narrow.microcode (.jc k) 2 = { io := true, jc := true, rst := true } ∧
    narrow.microcode (.jz k) 2 = { io := true, jz := true, rst := true } ∧
    narrow.microcode (.out k) 2 = { ao := true, oi := true, rst := true } ∧
    narrow.microcode (.hlt k) 2 = { hlt := true }

/-! ### The instructions of the reference instance

Each says that the instruction, run on the machine that has fetched it, completes, and in what state. All rest on the
spec's reference map and microcode (decisions D2, D3; log 2), and the pending flags on D11 (log 5). -/

/-- spec/46_instr_system.md, NOP: nothing beyond the fetch but the pending flags. -/
def Obligations.NopResult : Prop :=
  ∀ (x : Nibble) (s : State), s.fault = none →
    exec (.nop x) s = .next
      { s with ir := encode (.nop x), pending := adderFlags s.a s.b false, mstep := 0, ctrl := fetchAddress,
               fresh := false }

/-- spec/43_instr_memory.md, LDA: `MAR <- k`, `A <- MemRead(k, 1)`; the latched flags stand; the pending flags are those
of the old `A`. -/
def Obligations.LdaResult : Prop :=
  ∀ (k : Nibble) (s : State), s.fault = none →
    exec (.lda k) s = .next
      { s with ir := encode (.lda k), mar := k.setWidth 8, a := s.mem.read k.toNat,
               pending := adderFlags s.a s.b false, mstep := 0, ctrl := fetchAddress, fresh := false }

/-- spec/43_instr_memory.md, STA: `MAR <- k`, `MemWrite(k, 1, A)`; the latched flags stand. -/
def Obligations.StaResult : Prop :=
  ∀ (k : Nibble) (s : State), s.fault = none →
    exec (.sta k) s = .next
      { s with ir := encode (.sta k), mar := k.setWidth 8, mem := s.mem.write k.toNat s.a,
               pending := adderFlags s.a s.b false, mstep := 0, ctrl := fetchAddress, fresh := false }

/-- spec/43_instr_memory.md, LDI: `A <- zext_8(k)`; the latched flags and `MAR` stand. -/
def Obligations.LdiResult : Prop :=
  ∀ (k : Nibble) (s : State), s.fault = none →
    exec (.ldi k) s = .next
      { s with ir := encode (.ldi k), a := k.setWidth 8, pending := adderFlags s.a s.b false, mstep := 0,
               ctrl := fetchAddress, fresh := false }

/-- spec/44_instr_arith.md, ADD: `B <- v`, `A <- (a + v) mod 256`; the latched flags are those of `a + b0`, with `b0` the
old `B`; the pending flags are those of `a + v`. -/
def Obligations.AddResult : Prop :=
  ∀ (k : Nibble) (s : State), s.fault = none →
    exec (.add k) s = .next
      { s with ir := encode (.add k), mar := k.setWidth 8, b := s.mem.read k.toNat,
               a := BitVec.ofNat 8 ((s.a.toNat + (s.mem.read k.toNat).toNat) % 256),
               flags := { z := decide ((s.a.toNat + s.b.toNat) % 256 = 0), c := decide (255 < s.a.toNat + s.b.toNat) },
               pending := { z := decide ((s.a.toNat + (s.mem.read k.toNat).toNat) % 256 = 0),
                            c := decide (255 < s.a.toNat + (s.mem.read k.toNat).toNat) },
               mstep := 0, ctrl := fetchAddress, fresh := false }

/-- spec/44_instr_arith.md, SUB: `B <- v`, `A <- (a - v) mod 256`; the latched flags are those of `a + b0` in add mode;
the subtract-mode flags reach only the pending flags, and its carry is the borrow `a < v` (decision D20; log 6). -/
def Obligations.SubResult : Prop :=
  ∀ (k : Nibble) (s : State), s.fault = none →
    exec (.sub k) s = .next
      { s with ir := encode (.sub k), mar := k.setWidth 8, b := s.mem.read k.toNat,
               a := BitVec.ofNat 8 ((s.a.toNat + 256 - (s.mem.read k.toNat).toNat) % 256),
               flags := { z := decide ((s.a.toNat + s.b.toNat) % 256 = 0), c := decide (255 < s.a.toNat + s.b.toNat) },
               pending := { z := decide (s.a.toNat = (s.mem.read k.toNat).toNat),
                            c := decide (s.a.toNat < (s.mem.read k.toNat).toNat) },
               mstep := 0, ctrl := fetchAddress, fresh := false }

/-- spec/45_instr_control.md, JMP: `pc <- k`; the latched flags stand. -/
def Obligations.JmpResult : Prop :=
  ∀ (k : Nibble) (s : State), s.fault = none →
    exec (.jmp k) s = .next
      { s with ir := encode (.jmp k), pc := k.setWidth 8, pending := adderFlags s.a s.b false, mstep := 0,
               ctrl := fetchAddress, fresh := false }

/-- spec/45_instr_control.md, JC: `pc <- k` if the latched carry is set, else `PC` stands; no latched flag is written. -/
def Obligations.JcResult : Prop :=
  ∀ (k : Nibble) (s : State), s.fault = none →
    exec (.jc k) s = .next
      { s with ir := encode (.jc k), pc := if s.flags.c then k.setWidth 8 else s.pc,
               pending := adderFlags s.a s.b false, mstep := 0, ctrl := fetchAddress, fresh := false }

/-- spec/45_instr_control.md, JZ: `pc <- k` if the latched zero is set, else `PC` stands; no latched flag is written. -/
def Obligations.JzResult : Prop :=
  ∀ (k : Nibble) (s : State), s.fault = none →
    exec (.jz k) s = .next
      { s with ir := encode (.jz k), pc := if s.flags.z then k.setWidth 8 else s.pc,
               pending := adderFlags s.a s.b false, mstep := 0, ctrl := fetchAddress, fresh := false }

/-- spec/46_instr_system.md, OUT: `OUT <- A`, and exactly one byte, `A`, is produced (the model's record `outputs`,
log 15). -/
def Obligations.OutResult : Prop :=
  ∀ (x : Nibble) (s : State), s.fault = none →
    exec (.out x) s = .next
      { s with ir := encode (.out x), out := s.a, outputs := s.outputs ++ [s.a], pending := adderFlags s.a s.b false,
               mstep := 0, ctrl := fetchAddress, fresh := false }

/-- spec/46_instr_system.md, HLT: the machine is halted with `HLT` current at microstep 2; nothing else changes beyond the
fetch. -/
def Obligations.HltResult : Prop :=
  ∀ (x : Nibble) (s : State), s.fault = none →
    exec (.hlt x) s = .next { s with ir := encode (.hlt x), mstep := 2, ctrl := { hlt := true } }

/-! ### Frames -/

/-- The instructions that touch no memory (NOP, LDI, JMP, JC, JZ, OUT, HLT): every byte of memory, every register but `IR`
and the destination, the latched flags, the fault record and the mark are unchanged. -/
def Obligations.FrameOfRegisterOnlyInstructions : Prop :=
  ∀ (k : Nibble) (i : Instr) (changed : List Reg) (s t : State),
    (i, changed) ∈ [(.nop k, []), (.ldi k, [.a]), (.jmp k, [.pc]), (.jc k, [.pc]), (.jz k, [.pc]), (.out k, [.out]),
      (.hlt k, [])] →
    exec i s = .next t →
    memoryKept s t ∧ regsKept (.ir :: changed) s t ∧ t.ir = encode i ∧ t.flags = s.flags ∧ t.fault = s.fault ∧
    t.boundReset = s.boundReset ∧ ((∀ x, i ≠ .out x) → t.outputs = s.outputs)

/-- The instructions that read memory (LDA, ADD, SUB): every byte of memory, every register but `IR`, `MAR` and the
destinations, the fault record, the mark and the outputs are unchanged; LDA leaves the latched flags. -/
def Obligations.FrameOfMemoryReadingInstructions : Prop :=
  ∀ (k : Nibble) (i : Instr) (changed : List Reg) (s t : State),
    (i, changed) ∈ [(.lda k, [.a]), (.add k, [.a, .b]), (.sub k, [.a, .b])] →
    exec i s = .next t →
    memoryKept s t ∧ regsKept (.ir :: .mar :: changed) s t ∧ t.ir = encode i ∧ (i = .lda k → t.flags = s.flags) ∧
    t.fault = s.fault ∧ t.boundReset = s.boundReset ∧ t.outputs = s.outputs

/-- STA: the address stored to is what instruction-out drives for it, the same `operandOut` its cycles latch into
`MAR`; every byte outside that one address, every register but `IR` and `MAR`, the latched flags, the fault record, the
mark and the outputs are unchanged. The premise on memory is the model's canonical form (log 3). -/
def Obligations.FrameOfStore : Prop :=
  ∀ (k : Nibble) (s t : State), s.mem.wf = true → exec (.sta k) s = .next t →
    (∀ x y, (operandOut narrow (encode (.sta k))).toNat = x → y ≠ x → t.mem.read y = s.mem.read y) ∧
    regsKept [.ir, .mar] s t ∧ t.ir = encode (.sta k) ∧ t.flags = s.flags ∧ t.fault = s.fault ∧
    t.boundReset = s.boundReset ∧ t.outputs = s.outputs

/-! ### The whole machine -/

/-- A step runs the decoded instruction: between two instructions, with a byte at `PC` that decodes to `i`, the step is
the execute sequence of `i` on the state the universal fetch leaves (`MAR` at the fetch address, the byte in `IR`, `PC`
one further and from 15 back to 0, the pending flags of the fetch, microstep 2). The first fetch cycle decodes the old
`IR`, which must decode (log 19); that `Narrow` has 16 bytes is the spec's decision D6 (log 9). -/
def Obligations.StepRunsDecodedInstruction : Prop :=
  ∀ (s : State) (i j : Instr), s.fault = none → s.mstep = 0 → s.ctrl = fetchAddress → s.pc.toNat < 16 →
    narrow.decode s.ir = .ok j → decode (s.mem.read s.pc.toNat) = .ok i →
    step s = exec i (afterFetch i s) ∧
    (afterFetch i s).pc.toNat = (if s.pc.toNat = 15 then 0 else s.pc.toNat + 1) ∧
    (afterFetch i s).ir = s.mem.read s.pc.toNat

/-- spec/46_instr_system.md, undefined opcodes, and spec/60_exceptions.md section 1 (decision D2; log 2): a step that
fetches a byte 0x90..0xDF ends in `DecodeError` with that byte. -/
def Obligations.StepOfUndefinedOpcodeFaults : Prop :=
  ∀ (s : State) (j : Instr), s.fault = none → s.mstep = 0 → s.ctrl = fetchAddress → s.pc.toNat < narrow.cap →
    narrow.decode s.ir = .ok j → 0x90 ≤ (s.mem.read s.pc.toNat).toNat → (s.mem.read s.pc.toNat).toNat ≤ 0xDF →
    step s = .fault (.decodeError (s.mem.read s.pc.toNat))

/-- A step is nothing but cycles (log 1): from every state it answers what 1 to `BOUND + 1` cycles of the spec's `step()`
answer, and where it goes on the sequence has ended or the machine is halted. -/
def Obligations.StepIsCycles : Prop :=
  ∀ s : State, (∃ n, 1 ≤ n ∧ n ≤ narrow.bound + 1 ∧ step s = cycles narrow n s) ∧
    ∀ t, step s = .next t → t.mstep = 0 ∨ isHalted t = true

/-- spec/70_reset_and_hazards.md section 3 (the counts hold for the reference microcode, decision D3; log 2): an
instruction takes exactly the cycles of R270, and no earlier cycle ends its sequence. -/
def Obligations.CycleCounts : Prop :=
  ∀ (s : State) (i j : Instr), s.fault = none → s.mstep = 0 → s.ctrl = fetchAddress → s.pc.toNat < narrow.cap →
    narrow.decode s.ir = .ok j → s.mem.read s.pc.toNat = encode i →
    (∃ t, cycles narrow (cycleCount i) s = .next t ∧ step s = .next t ∧ (t.mstep = 0 ∨ isHalted t = true)) ∧
    ∀ n u, 0 < n → n < cycleCount i → cycles narrow n s = .next u → u.mstep ≠ 0 ∧ isHalted u = false

/-- spec/20_memory.md section 4 (R63): a byte stored where the next instruction is fetched is the instruction that runs
next, with nothing between. The premise on memory is the model's canonical form (log 3). -/
def Obligations.StoreIsSeenByNextFetch : Prop :=
  ∀ (s t : State) (k : Nibble) (i : Instr), s.fault = none → s.mem.wf = true → s.pc = k.setWidth 8 →
    decode s.a = .ok i → exec (.sta k) s = .next t → step t = exec i (afterFetch i t)

/-- spec/42_machine_core.md section 2 (R163): the control invariant is kept by every cycle of every well-formed
variant (R128 with the decisions D8, D22; log 9, log 11). The lookup at the advanced microstep is the spec's decision D21
(log 7), the bound D7 (log 8). -/
def Obligations.CycleKeepsControlInv : Prop :=
  ∀ (ι : Type) (V : Variant ι) (s t : State) (o : Option Byte), V.WellFormed → ControlInv V s →
    cycle V s = .next (t, o) → ControlInv V t

/-- Every cycle of every variant keeps memory in the canonical form, with no address outside the array of
spec/20_memory.md section 1 and spec/10_state.md section 4. The canonical form is the model's own representation of the
byte array and no rule of the spec (log 3); that no access reaches an address outside the array rests on the spec's
range check D15 (log 10). -/
def Obligations.CycleKeepsMemoryInv : Prop :=
  ∀ (ι : Type) (V : Variant ι) (s t : State) (o : Option Byte), MemoryInv V s → cycle V s = .next (t, o) → MemoryInv V t

/-- spec/41_microsequencer.md section 2 (R128, decision D22; log 11): in a state of the control invariant of a well-formed
variant no cycle is refused. -/
def Obligations.WellFormedVariantNeverRefuses : Prop :=
  ∀ (ι : Type) (V : Variant ι) (s : State) (e : Refusal), V.WellFormed → ControlInv V s → cycle V s ≠ .refused e

/-- The invariant of the reference machine holds after construction. The canonical form is the model's own
representation of the byte array and no rule of the spec (log 3); the machine is the reference instance (D2, D3; log
2). -/
def Obligations.ResetHasNarrowInv : Prop := NarrowInv State.reset

/-- Every step keeps the invariant of the reference machine: R163's pair of control word and microstep, `PC` and `MAR`
inside the array, canonical memory, no fault and no bound-forced reset. The canonical form is the model's own
representation of the byte array and no rule of the spec (log 3); the machine is the reference instance (D2, D3; log
2), with the lookup of D21 (log 7) and the bound of D7 (log 8). -/
def Obligations.StepKeepsNarrowInv : Prop := ∀ s t : State, NarrowInv s → step s = .next t → NarrowInv t

/-- spec/60_exceptions.md section 1 (decisions D2, D3, D15; log 2, log 10): from a state of the invariant a step either
completes or has fetched an undefined opcode; no address fault and no refusal can happen. The invariant in its premise
holds the model's canonical form of memory (log 3). -/
def Obligations.StepFaultsOnlyOnUndefinedOpcode : Prop :=
  ∀ s : State, NarrowInv s → (∃ t, step s = .next t) ∨
    ∃ b : Byte, 0x90 ≤ b.toNat ∧ b.toNat ≤ 0xDF ∧ step s = .fault (.decodeError b) ∧
      ((s.mstep = 0 ∧ b = s.mem.read s.pc.toNat) ∨ (s.mstep = 1 ∧ b = s.mem.read s.mar.toNat))
end

