-- ==== Sys2Proof/Laws/Memory.lean ====
section
/-!
SUPPORT. The laws of the memory array: a read after a write, the canonical form and the address range, for one write
and for the image loader (spec/20_memory.md R56, R60).
-/
namespace Sys2Proof.Machine

@[simp] theorem Memory.read_nil (x : Nat) : Memory.read [] x = 0 := rfl

@[simp] theorem Memory.read_cons (k x : Nat) (w : Byte) (t : Memory) :
    Memory.read ((k, w) :: t) x = if k = x then w else t.read x := rfl

@[simp] theorem Memory.sortedFrom_nil (lo : Nat) : Memory.sortedFrom lo [] = true := rfl

@[simp] theorem Memory.sortedFrom_cons (lo k : Nat) (w : Byte) (t : Memory) :
    (Memory.sortedFrom lo ((k, w) :: t) = true) ↔ lo ≤ k ∧ w ≠ 0#8 ∧ t.sortedFrom (k + 1) = true := by
  simp [Memory.sortedFrom, and_assoc]

@[simp] theorem Memory.below_nil (cap : Nat) : Memory.below cap [] = true := rfl

@[simp] theorem Memory.below_cons (cap k : Nat) (w : Byte) (t : Memory) :
    (Memory.below cap ((k, w) :: t) = true) ↔ k < cap ∧ t.below cap = true := by
  simp [Memory.below]

/-- Below its first possible address a canonical memory reads as 0. -/
theorem Memory.read_of_lt (m : Memory) {lo x : Nat} (h : m.sortedFrom lo = true) (hx : x < lo) : m.read x = 0#8 := by
  induction m generalizing lo with
  | nil => rfl
  | cons c t ih =>
    rw [Memory.sortedFrom_cons] at h
    rw [Memory.read_cons, if_neg (by omega), ih h.2.2 (by omega)]

theorem Memory.sortedFrom_mono (m : Memory) {lo lo' : Nat} (h : m.sortedFrom lo = true) (hle : lo' ≤ lo) :
    m.sortedFrom lo' = true := by
  cases m with
  | nil => rfl
  | cons c t =>
    rw [Memory.sortedFrom_cons] at h ⊢
    exact ⟨by omega, h.2⟩

theorem Memory.read_entry (t : Memory) (x y : Nat) (v : Byte) (h : t.read x = 0#8 ∨ v ≠ 0#8) :
    (Memory.entry x v t).read y = if x = y then v else t.read y := by
  unfold Memory.entry
  by_cases hv : v = 0#8
  · by_cases hxy : x = y
    · subst hxy; simp_all
    · simp [hv, hxy]
  · simp [hv]

theorem Memory.sortedFrom_entry (t : Memory) {lo x : Nat} (v : Byte) (hx : lo ≤ x) (h : t.sortedFrom (x + 1) = true) :
    (Memory.entry x v t).sortedFrom lo = true := by
  unfold Memory.entry
  split
  · exact Memory.sortedFrom_mono t h (by omega)
  · rename_i hv; exact (Memory.sortedFrom_cons _ _ _ _).2 ⟨hx, hv, h⟩

theorem Memory.below_entry (t : Memory) {cap x : Nat} (v : Byte) (hx : x < cap) (h : t.below cap = true) :
    (Memory.entry x v t).below cap = true := by
  unfold Memory.entry
  split
  · exact h
  · exact (Memory.below_cons _ _ _ _).2 ⟨hx, h⟩

theorem Memory.read_write_from (m : Memory) {lo : Nat} (x y : Nat) (v : Byte) (h : m.sortedFrom lo = true) :
    (m.write x v).read y = if x = y then v else m.read y := by
  induction m generalizing lo with
  | nil => exact Memory.read_entry [] x y v (.inl rfl)
  | cons c t ih =>
    obtain ⟨k, w⟩ := c
    have hs := (Memory.sortedFrom_cons _ _ _ _).1 h
    unfold Memory.write
    split
    · refine Memory.read_entry _ x y v (.inl ?_)
      rw [Memory.read_cons, if_neg (by omega), Memory.read_of_lt t hs.2.2 (by omega)]
    · split
      · rename_i hxk
        rw [Memory.read_entry t x y v (.inl (Memory.read_of_lt t hs.2.2 (by omega))), Memory.read_cons]
        by_cases hxy : x = y
        · simp [hxy]
        · rw [if_neg hxy, if_neg hxy, if_neg (by omega)]
      · rename_i hlt hne
        rw [Memory.read_cons, Memory.read_cons, ih hs.2.2]
        by_cases hky : k = y
        · rw [if_pos hky, if_pos hky, if_neg (by omega)]
        · rw [if_neg hky, if_neg hky]

/-- A read after a write: the byte written at its address, the old byte everywhere else. -/
theorem Memory.read_write (m : Memory) (x y : Nat) (v : Byte) (h : m.wf = true) :
    (m.write x v).read y = if x = y then v else m.read y := Memory.read_write_from m x y v h

theorem Memory.sortedFrom_write (m : Memory) {lo x : Nat} (v : Byte) (h : m.sortedFrom lo = true) (hx : lo ≤ x) :
    (m.write x v).sortedFrom lo = true := by
  induction m generalizing lo with
  | nil => exact Memory.sortedFrom_entry [] v hx rfl
  | cons c t ih =>
    obtain ⟨k, w⟩ := c
    have hs := (Memory.sortedFrom_cons _ _ _ _).1 h
    unfold Memory.write
    split
    · exact Memory.sortedFrom_entry _ v hx ((Memory.sortedFrom_cons _ _ _ _).2 ⟨by omega, hs.2⟩)
    · split
      · rename_i hxk
        exact Memory.sortedFrom_entry t v hx (hxk ▸ hs.2.2)
      · exact (Memory.sortedFrom_cons _ _ _ _).2 ⟨hs.1, hs.2.1, ih hs.2.2 (by omega)⟩

/-- A write keeps the canonical form. -/
theorem Memory.write_wf (m : Memory) (x : Nat) (v : Byte) (h : m.wf = true) : (m.write x v).wf = true :=
  Memory.sortedFrom_write m v h (Nat.zero_le x)

/-- A write inside the array lists no address outside it. -/
theorem Memory.write_below (m : Memory) (cap x : Nat) (v : Byte) (h : m.below cap = true) (hx : x < cap) :
    (m.write x v).below cap = true := by
  induction m with
  | nil => exact Memory.below_entry [] v hx rfl
  | cons c t ih =>
    obtain ⟨k, w⟩ := c
    have hs := (Memory.below_cons _ _ _ _).1 h
    unfold Memory.write
    split
    · exact Memory.below_entry _ v hx h
    · split
      · exact Memory.below_entry t v hx hs.2
      · exact (Memory.below_cons _ _ _ _).2 ⟨hs.1, ih hs.2⟩

/-- What a write through `MAR` can do: it answers the written memory and the address is in range, or it faults. -/
theorem memWrite_ok {ι : Type} {V : Variant ι} {m m' : Memory} {mar v : Byte} (h : memWrite V m mar v = .ok m') :
    mar.toNat < V.cap ∧ m' = m.write mar.toNat v := by
  unfold memWrite at h
  split at h <;> simp_all

/-- What a read through `MAR` can do: it answers the byte and the address is in range, or it faults. -/
theorem memRead_ok {ι : Type} {V : Variant ι} {m : Memory} {mar v : Byte} (h : memRead V m mar = .ok v) :
    mar.toNat < V.cap ∧ v = m.read mar.toNat := by
  unfold memRead at h
  split at h <;> simp_all

/-- The image loader keeps the canonical form. -/
theorem loadBytes_wf (vs : List Byte) (x : Nat) (m : Memory) (h : m.wf = true) : (loadBytes x vs m).wf = true := by
  induction vs generalizing x m with
  | nil => exact h
  | cons v vs ih => exact ih (x + 1) _ (Memory.write_wf m x v h)

/-- The image loader stays inside the array when the image ends inside it. -/
theorem loadBytes_below (vs : List Byte) (cap x : Nat) (m : Memory) (h : m.below cap = true)
    (hx : x + vs.length ≤ cap) : (loadBytes x vs m).below cap = true := by
  induction vs generalizing x m with
  | nil => exact h
  | cons v vs ih =>
    simp only [List.length_cons] at hx
    exact ih (x + 1) _ (Memory.write_below m cap x v h (by omega)) (by omega)

/-- Construction's memory is in canonical form. -/
theorem reset_mem_wf : State.reset.mem.wf = true := rfl

end Sys2Proof.Machine
end

