-- ==== Sys2Proof/Laws/State.lean ====
section
/-!
SUPPORT. One lemma per field per update of the state, so that no proof unfolds a record update.
-/
namespace Sys2Proof.Machine

/-! ### Registers: `setReg` and `latch` -/

@[simp] theorem State.setReg_flags (s : State) (r : Reg) (v : Byte) : (s.setReg r v).flags = s.flags :=
    by cases r <;> rfl
@[simp] theorem State.setReg_pending (s : State) (r : Reg) (v : Byte) : (s.setReg r v).pending = s.pending :=
    by cases r <;> rfl
@[simp] theorem State.setReg_ctrl (s : State) (r : Reg) (v : Byte) : (s.setReg r v).ctrl = s.ctrl :=
    by cases r <;> rfl
@[simp] theorem State.setReg_mstep (s : State) (r : Reg) (v : Byte) : (s.setReg r v).mstep = s.mstep :=
    by cases r <;> rfl
@[simp] theorem State.setReg_mem (s : State) (r : Reg) (v : Byte) : (s.setReg r v).mem = s.mem := by cases r <;> rfl
@[simp] theorem State.setReg_fault (s : State) (r : Reg) (v : Byte) : (s.setReg r v).fault = s.fault :=
    by cases r <;> rfl
@[simp] theorem State.setReg_boundReset (s : State) (r : Reg) (v : Byte) : (s.setReg r v).boundReset = s.boundReset :=
    by cases r <;> rfl
@[simp] theorem State.setReg_outputs (s : State) (r : Reg) (v : Byte) : (s.setReg r v).outputs = s.outputs :=
    by cases r <;> rfl
@[simp] theorem State.setReg_fresh (s : State) (r : Reg) (v : Byte) : (s.setReg r v).fresh = s.fresh :=
    by cases r <;> rfl
@[simp] theorem State.setReg_pc (s : State) (r : Reg) (v : Byte) : (s.setReg r v).pc = if r = .pc then v else s.pc :=
    by cases r <;> rfl
@[simp] theorem State.setReg_a (s : State) (r : Reg) (v : Byte) : (s.setReg r v).a = if r = .a then v else s.a :=
    by cases r <;> rfl
@[simp] theorem State.setReg_b (s : State) (r : Reg) (v : Byte) : (s.setReg r v).b = if r = .b then v else s.b :=
    by cases r <;> rfl
@[simp] theorem State.setReg_out (s : State) (r : Reg) (v : Byte) : (s.setReg r v).out = if r = .out then v else s.out :=
    by cases r <;> rfl
@[simp] theorem State.setReg_mar (s : State) (r : Reg) (v : Byte) : (s.setReg r v).mar = if r = .mar then v else s.mar :=
    by cases r <;> rfl
@[simp] theorem State.setReg_ir (s : State) (r : Reg) (v : Byte) : (s.setReg r v).ir = if r = .ir then v else s.ir :=
    by cases r <;> rfl

/-- A register write followed by a read of any register (R10). -/
theorem State.reg_setReg (s : State) (r q : Reg) (v : Byte) :
    (s.setReg r v).reg q = if r = q then v else s.reg q := by cases r <;> cases q <;> rfl

@[simp] theorem State.latch_flags (s : State) (e : Bool) (r : Reg) (v : Byte) : (s.latch e r v).flags = s.flags :=
    by cases e <;> simp [State.latch]
@[simp] theorem State.latch_pending (s : State) (e : Bool) (r : Reg) (v : Byte) : (s.latch e r v).pending = s.pending :=
    by cases e <;> simp [State.latch]
@[simp] theorem State.latch_ctrl (s : State) (e : Bool) (r : Reg) (v : Byte) : (s.latch e r v).ctrl = s.ctrl :=
    by cases e <;> simp [State.latch]
@[simp] theorem State.latch_mstep (s : State) (e : Bool) (r : Reg) (v : Byte) : (s.latch e r v).mstep = s.mstep :=
    by cases e <;> simp [State.latch]
@[simp] theorem State.latch_mem (s : State) (e : Bool) (r : Reg) (v : Byte) : (s.latch e r v).mem = s.mem :=
    by cases e <;> simp [State.latch]
@[simp] theorem State.latch_fault (s : State) (e : Bool) (r : Reg) (v : Byte) : (s.latch e r v).fault = s.fault :=
    by cases e <;> simp [State.latch]
@[simp] theorem State.latch_boundReset (s : State) (e : Bool) (r : Reg) (v : Byte) : (s.latch e r v).boundReset = s.boundReset :=
    by cases e <;> simp [State.latch]
@[simp] theorem State.latch_outputs (s : State) (e : Bool) (r : Reg) (v : Byte) : (s.latch e r v).outputs = s.outputs :=
    by cases e <;> simp [State.latch]
@[simp] theorem State.latch_fresh (s : State) (e : Bool) (r : Reg) (v : Byte) : (s.latch e r v).fresh = s.fresh :=
    by cases e <;> simp [State.latch]
@[simp] theorem State.latch_pc (s : State) (e : Bool) (r : Reg) (v : Byte) : (s.latch e r v).pc = if e = true ∧ r = .pc then v else s.pc :=
    by cases e <;> simp [State.latch]
@[simp] theorem State.latch_a (s : State) (e : Bool) (r : Reg) (v : Byte) : (s.latch e r v).a = if e = true ∧ r = .a then v else s.a :=
    by cases e <;> simp [State.latch]
@[simp] theorem State.latch_b (s : State) (e : Bool) (r : Reg) (v : Byte) : (s.latch e r v).b = if e = true ∧ r = .b then v else s.b :=
    by cases e <;> simp [State.latch]
@[simp] theorem State.latch_out (s : State) (e : Bool) (r : Reg) (v : Byte) : (s.latch e r v).out = if e = true ∧ r = .out then v else s.out :=
    by cases e <;> simp [State.latch]
@[simp] theorem State.latch_mar (s : State) (e : Bool) (r : Reg) (v : Byte) : (s.latch e r v).mar = if e = true ∧ r = .mar then v else s.mar :=
    by cases e <;> simp [State.latch]
@[simp] theorem State.latch_ir (s : State) (e : Bool) (r : Reg) (v : Byte) : (s.latch e r v).ir = if e = true ∧ r = .ir then v else s.ir :=
    by cases e <;> simp [State.latch]

/-! ### Flag commit (R155) -/

@[simp] theorem commitFlags_pc (s : State) : (commitFlags s).pc = s.pc := by unfold commitFlags; split <;> rfl
@[simp] theorem commitFlags_a (s : State) : (commitFlags s).a = s.a := by unfold commitFlags; split <;> rfl
@[simp] theorem commitFlags_b (s : State) : (commitFlags s).b = s.b := by unfold commitFlags; split <;> rfl
@[simp] theorem commitFlags_out (s : State) : (commitFlags s).out = s.out := by unfold commitFlags; split <;> rfl
@[simp] theorem commitFlags_mar (s : State) : (commitFlags s).mar = s.mar := by unfold commitFlags; split <;> rfl
@[simp] theorem commitFlags_ir (s : State) : (commitFlags s).ir = s.ir := by unfold commitFlags; split <;> rfl
@[simp] theorem commitFlags_flags (s : State) : (commitFlags s).flags = if s.ctrl.fi then s.pending else s.flags :=
    by unfold commitFlags; split <;> simp_all
@[simp] theorem commitFlags_pending (s : State) : (commitFlags s).pending = s.pending :=
    by unfold commitFlags; split <;> rfl
@[simp] theorem commitFlags_ctrl (s : State) : (commitFlags s).ctrl = s.ctrl := by unfold commitFlags; split <;> rfl
@[simp] theorem commitFlags_mstep (s : State) : (commitFlags s).mstep = s.mstep :=
    by unfold commitFlags; split <;> rfl
@[simp] theorem commitFlags_mem (s : State) : (commitFlags s).mem = s.mem := by unfold commitFlags; split <;> rfl
@[simp] theorem commitFlags_fault (s : State) : (commitFlags s).fault = s.fault :=
    by unfold commitFlags; split <;> rfl
@[simp] theorem commitFlags_boundReset (s : State) : (commitFlags s).boundReset = s.boundReset :=
    by unfold commitFlags; split <;> rfl
@[simp] theorem commitFlags_outputs (s : State) : (commitFlags s).outputs = s.outputs :=
    by unfold commitFlags; split <;> rfl
@[simp] theorem commitFlags_fresh (s : State) : (commitFlags s).fresh = s.fresh :=
    by unfold commitFlags; split <;> rfl

/-! ### Pending update (R156) -/

@[simp] theorem updatePending_pc (p : Flags) (s : State) : (updatePending p s).pc = s.pc := rfl
@[simp] theorem updatePending_a (p : Flags) (s : State) : (updatePending p s).a = s.a := rfl
@[simp] theorem updatePending_b (p : Flags) (s : State) : (updatePending p s).b = s.b := rfl
@[simp] theorem updatePending_out (p : Flags) (s : State) : (updatePending p s).out = s.out := rfl
@[simp] theorem updatePending_mar (p : Flags) (s : State) : (updatePending p s).mar = s.mar := rfl
@[simp] theorem updatePending_ir (p : Flags) (s : State) : (updatePending p s).ir = s.ir := rfl
@[simp] theorem updatePending_flags (p : Flags) (s : State) : (updatePending p s).flags = s.flags := rfl
@[simp] theorem updatePending_pending (p : Flags) (s : State) : (updatePending p s).pending = p := rfl
@[simp] theorem updatePending_ctrl (p : Flags) (s : State) : (updatePending p s).ctrl = s.ctrl := rfl
@[simp] theorem updatePending_mstep (p : Flags) (s : State) : (updatePending p s).mstep = s.mstep := rfl
@[simp] theorem updatePending_mem (p : Flags) (s : State) : (updatePending p s).mem = s.mem := rfl
@[simp] theorem updatePending_fault (p : Flags) (s : State) : (updatePending p s).fault = s.fault := rfl
@[simp] theorem updatePending_boundReset (p : Flags) (s : State) : (updatePending p s).boundReset = s.boundReset :=
    rfl
@[simp] theorem updatePending_outputs (p : Flags) (s : State) : (updatePending p s).outputs = s.outputs := rfl
@[simp] theorem updatePending_fresh (p : Flags) (s : State) : (updatePending p s).fresh = s.fresh := rfl

/-! ### Jump phase (R157) -/

@[simp] theorem jumpPhase_pc {ι : Type} (V : Variant ι) (bus : Byte) (s : State) : (jumpPhase V bus s).pc = if jumpTaken s then jumpTarget V bus else s.pc :=
    by unfold jumpPhase; split <;> simp_all
@[simp] theorem jumpPhase_a {ι : Type} (V : Variant ι) (bus : Byte) (s : State) : (jumpPhase V bus s).a = s.a :=
    by unfold jumpPhase; split <;> rfl
@[simp] theorem jumpPhase_b {ι : Type} (V : Variant ι) (bus : Byte) (s : State) : (jumpPhase V bus s).b = s.b :=
    by unfold jumpPhase; split <;> rfl
@[simp] theorem jumpPhase_out {ι : Type} (V : Variant ι) (bus : Byte) (s : State) : (jumpPhase V bus s).out = s.out :=
    by unfold jumpPhase; split <;> rfl
@[simp] theorem jumpPhase_mar {ι : Type} (V : Variant ι) (bus : Byte) (s : State) : (jumpPhase V bus s).mar = s.mar :=
    by unfold jumpPhase; split <;> rfl
@[simp] theorem jumpPhase_ir {ι : Type} (V : Variant ι) (bus : Byte) (s : State) : (jumpPhase V bus s).ir = s.ir :=
    by unfold jumpPhase; split <;> rfl
@[simp] theorem jumpPhase_flags {ι : Type} (V : Variant ι) (bus : Byte) (s : State) : (jumpPhase V bus s).flags = s.flags :=
    by unfold jumpPhase; split <;> rfl
@[simp] theorem jumpPhase_pending {ι : Type} (V : Variant ι) (bus : Byte) (s : State) : (jumpPhase V bus s).pending = s.pending :=
    by unfold jumpPhase; split <;> rfl
@[simp] theorem jumpPhase_ctrl {ι : Type} (V : Variant ι) (bus : Byte) (s : State) : (jumpPhase V bus s).ctrl = s.ctrl :=
    by unfold jumpPhase; split <;> rfl
@[simp] theorem jumpPhase_mstep {ι : Type} (V : Variant ι) (bus : Byte) (s : State) : (jumpPhase V bus s).mstep = s.mstep :=
    by unfold jumpPhase; split <;> rfl
@[simp] theorem jumpPhase_mem {ι : Type} (V : Variant ι) (bus : Byte) (s : State) : (jumpPhase V bus s).mem = s.mem :=
    by unfold jumpPhase; split <;> rfl
@[simp] theorem jumpPhase_fault {ι : Type} (V : Variant ι) (bus : Byte) (s : State) : (jumpPhase V bus s).fault = s.fault :=
    by unfold jumpPhase; split <;> rfl
@[simp] theorem jumpPhase_boundReset {ι : Type} (V : Variant ι) (bus : Byte) (s : State) : (jumpPhase V bus s).boundReset = s.boundReset :=
    by unfold jumpPhase; split <;> rfl
@[simp] theorem jumpPhase_outputs {ι : Type} (V : Variant ι) (bus : Byte) (s : State) : (jumpPhase V bus s).outputs = s.outputs :=
    by unfold jumpPhase; split <;> rfl
@[simp] theorem jumpPhase_fresh {ι : Type} (V : Variant ι) (bus : Byte) (s : State) : (jumpPhase V bus s).fresh = s.fresh :=
    by unfold jumpPhase; split <;> rfl

/-! ### Increment phase (R158) -/

@[simp] theorem incrementPhase_pc {ι : Type} (V : Variant ι) (s : State) : (incrementPhase V s).pc = if s.ctrl.ce then nextPc V s.pc else s.pc :=
    by unfold incrementPhase; split <;> simp_all
@[simp] theorem incrementPhase_a {ι : Type} (V : Variant ι) (s : State) : (incrementPhase V s).a = s.a :=
    by unfold incrementPhase; split <;> rfl
@[simp] theorem incrementPhase_b {ι : Type} (V : Variant ι) (s : State) : (incrementPhase V s).b = s.b :=
    by unfold incrementPhase; split <;> rfl
@[simp] theorem incrementPhase_out {ι : Type} (V : Variant ι) (s : State) : (incrementPhase V s).out = s.out :=
    by unfold incrementPhase; split <;> rfl
@[simp] theorem incrementPhase_mar {ι : Type} (V : Variant ι) (s : State) : (incrementPhase V s).mar = s.mar :=
    by unfold incrementPhase; split <;> rfl
@[simp] theorem incrementPhase_ir {ι : Type} (V : Variant ι) (s : State) : (incrementPhase V s).ir = s.ir :=
    by unfold incrementPhase; split <;> rfl
@[simp] theorem incrementPhase_flags {ι : Type} (V : Variant ι) (s : State) : (incrementPhase V s).flags = s.flags :=
    by unfold incrementPhase; split <;> rfl
@[simp] theorem incrementPhase_pending {ι : Type} (V : Variant ι) (s : State) : (incrementPhase V s).pending = s.pending :=
    by unfold incrementPhase; split <;> rfl
@[simp] theorem incrementPhase_ctrl {ι : Type} (V : Variant ι) (s : State) : (incrementPhase V s).ctrl = s.ctrl :=
    by unfold incrementPhase; split <;> rfl
@[simp] theorem incrementPhase_mstep {ι : Type} (V : Variant ι) (s : State) : (incrementPhase V s).mstep = s.mstep :=
    by unfold incrementPhase; split <;> rfl
@[simp] theorem incrementPhase_mem {ι : Type} (V : Variant ι) (s : State) : (incrementPhase V s).mem = s.mem :=
    by unfold incrementPhase; split <;> rfl
@[simp] theorem incrementPhase_fault {ι : Type} (V : Variant ι) (s : State) : (incrementPhase V s).fault = s.fault :=
    by unfold incrementPhase; split <;> rfl
@[simp] theorem incrementPhase_boundReset {ι : Type} (V : Variant ι) (s : State) : (incrementPhase V s).boundReset = s.boundReset :=
    by unfold incrementPhase; split <;> rfl
@[simp] theorem incrementPhase_outputs {ι : Type} (V : Variant ι) (s : State) : (incrementPhase V s).outputs = s.outputs :=
    by unfold incrementPhase; split <;> rfl
@[simp] theorem incrementPhase_fresh {ι : Type} (V : Variant ι) (s : State) : (incrementPhase V s).fresh = s.fresh :=
    by unfold incrementPhase; split <;> rfl

/-! ### Advance phase (R160) -/

@[simp] theorem advancePhase_pc {ι : Type} (V : Variant ι) (i : ι) (s : State) : (advancePhase V i s).pc = s.pc := rfl
@[simp] theorem advancePhase_a {ι : Type} (V : Variant ι) (i : ι) (s : State) : (advancePhase V i s).a = s.a := rfl
@[simp] theorem advancePhase_b {ι : Type} (V : Variant ι) (i : ι) (s : State) : (advancePhase V i s).b = s.b := rfl
@[simp] theorem advancePhase_out {ι : Type} (V : Variant ι) (i : ι) (s : State) : (advancePhase V i s).out = s.out :=
    rfl
@[simp] theorem advancePhase_mar {ι : Type} (V : Variant ι) (i : ι) (s : State) : (advancePhase V i s).mar = s.mar :=
    rfl
@[simp] theorem advancePhase_ir {ι : Type} (V : Variant ι) (i : ι) (s : State) : (advancePhase V i s).ir = s.ir := rfl
@[simp] theorem advancePhase_flags {ι : Type} (V : Variant ι) (i : ι) (s : State) : (advancePhase V i s).flags = s.flags :=
    rfl
@[simp] theorem advancePhase_pending {ι : Type} (V : Variant ι) (i : ι) (s : State) : (advancePhase V i s).pending = s.pending :=
    rfl
@[simp] theorem advancePhase_ctrl {ι : Type} (V : Variant ι) (i : ι) (s : State) : (advancePhase V i s).ctrl = V.microcode i (nextMstep V s) :=
    rfl
@[simp] theorem advancePhase_mstep {ι : Type} (V : Variant ι) (i : ι) (s : State) : (advancePhase V i s).mstep = nextMstep V s :=
    rfl
@[simp] theorem advancePhase_mem {ι : Type} (V : Variant ι) (i : ι) (s : State) : (advancePhase V i s).mem = s.mem :=
    rfl
@[simp] theorem advancePhase_fault {ι : Type} (V : Variant ι) (i : ι) (s : State) : (advancePhase V i s).fault = s.fault :=
    rfl
@[simp] theorem advancePhase_boundReset {ι : Type} (V : Variant ι) (i : ι) (s : State) : (advancePhase V i s).boundReset = (s.boundReset || boundForced V s) :=
    rfl
@[simp] theorem advancePhase_outputs {ι : Type} (V : Variant ι) (i : ι) (s : State) : (advancePhase V i s).outputs = s.outputs :=
    rfl
@[simp] theorem advancePhase_fresh {ι : Type} (V : Variant ι) (i : ι) (s : State) : (advancePhase V i s).fresh = s.fresh :=
    rfl

/-! ### Return phase (R161) -/

@[simp] theorem returnPhase_pc (o : Option Byte) (s : State) : (returnPhase o s).pc = s.pc := rfl
@[simp] theorem returnPhase_a (o : Option Byte) (s : State) : (returnPhase o s).a = s.a := rfl
@[simp] theorem returnPhase_b (o : Option Byte) (s : State) : (returnPhase o s).b = s.b := rfl
@[simp] theorem returnPhase_out (o : Option Byte) (s : State) : (returnPhase o s).out = s.out := rfl
@[simp] theorem returnPhase_mar (o : Option Byte) (s : State) : (returnPhase o s).mar = s.mar := rfl
@[simp] theorem returnPhase_ir (o : Option Byte) (s : State) : (returnPhase o s).ir = s.ir := rfl
@[simp] theorem returnPhase_flags (o : Option Byte) (s : State) : (returnPhase o s).flags = s.flags := rfl
@[simp] theorem returnPhase_pending (o : Option Byte) (s : State) : (returnPhase o s).pending = s.pending := rfl
@[simp] theorem returnPhase_ctrl (o : Option Byte) (s : State) : (returnPhase o s).ctrl = s.ctrl := rfl
@[simp] theorem returnPhase_mstep (o : Option Byte) (s : State) : (returnPhase o s).mstep = s.mstep := rfl
@[simp] theorem returnPhase_mem (o : Option Byte) (s : State) : (returnPhase o s).mem = s.mem := rfl
@[simp] theorem returnPhase_fault (o : Option Byte) (s : State) : (returnPhase o s).fault = s.fault := rfl
@[simp] theorem returnPhase_boundReset (o : Option Byte) (s : State) : (returnPhase o s).boundReset = s.boundReset :=
    rfl
@[simp] theorem returnPhase_outputs (o : Option Byte) (s : State) : (returnPhase o s).outputs = s.outputs ++ o.toList :=
    rfl
@[simp] theorem returnPhase_fresh (o : Option Byte) (s : State) : (returnPhase o s).fresh = false := rfl

/-! ### The fetched instruction -/

@[simp] theorem State.fetchedInstr_pc (s : State) (i : Instr) : (s.fetchedInstr i).pc = s.pc := rfl
@[simp] theorem State.fetchedInstr_a (s : State) (i : Instr) : (s.fetchedInstr i).a = s.a := rfl
@[simp] theorem State.fetchedInstr_b (s : State) (i : Instr) : (s.fetchedInstr i).b = s.b := rfl
@[simp] theorem State.fetchedInstr_out (s : State) (i : Instr) : (s.fetchedInstr i).out = s.out := rfl
@[simp] theorem State.fetchedInstr_mar (s : State) (i : Instr) : (s.fetchedInstr i).mar = s.mar := rfl
@[simp] theorem State.fetchedInstr_ir (s : State) (i : Instr) : (s.fetchedInstr i).ir = encode i := rfl
@[simp] theorem State.fetchedInstr_flags (s : State) (i : Instr) : (s.fetchedInstr i).flags = s.flags := rfl
@[simp] theorem State.fetchedInstr_pending (s : State) (i : Instr) : (s.fetchedInstr i).pending = s.pending := rfl
@[simp] theorem State.fetchedInstr_ctrl (s : State) (i : Instr) : (s.fetchedInstr i).ctrl = microcode i 2 := rfl
@[simp] theorem State.fetchedInstr_mstep (s : State) (i : Instr) : (s.fetchedInstr i).mstep = 2 := rfl
@[simp] theorem State.fetchedInstr_mem (s : State) (i : Instr) : (s.fetchedInstr i).mem = s.mem := rfl
@[simp] theorem State.fetchedInstr_fault (s : State) (i : Instr) : (s.fetchedInstr i).fault = s.fault := rfl
@[simp] theorem State.fetchedInstr_boundReset (s : State) (i : Instr) : (s.fetchedInstr i).boundReset = s.boundReset :=
    rfl
@[simp] theorem State.fetchedInstr_outputs (s : State) (i : Instr) : (s.fetchedInstr i).outputs = s.outputs := rfl
@[simp] theorem State.fetchedInstr_fresh (s : State) (i : Instr) : (s.fetchedInstr i).fresh = s.fresh := rfl

/-! ### A word placed for the next fetch -/

@[simp] theorem State.placeWord_pc (s : State) (v : Byte) : (s.placeWord v).pc = s.pc := rfl
@[simp] theorem State.placeWord_a (s : State) (v : Byte) : (s.placeWord v).a = s.a := rfl
@[simp] theorem State.placeWord_b (s : State) (v : Byte) : (s.placeWord v).b = s.b := rfl
@[simp] theorem State.placeWord_out (s : State) (v : Byte) : (s.placeWord v).out = s.out := rfl
@[simp] theorem State.placeWord_mar (s : State) (v : Byte) : (s.placeWord v).mar = s.mar := rfl
@[simp] theorem State.placeWord_ir (s : State) (v : Byte) : (s.placeWord v).ir = s.ir := rfl
@[simp] theorem State.placeWord_flags (s : State) (v : Byte) : (s.placeWord v).flags = s.flags := rfl
@[simp] theorem State.placeWord_pending (s : State) (v : Byte) : (s.placeWord v).pending = s.pending := rfl
@[simp] theorem State.placeWord_ctrl (s : State) (v : Byte) : (s.placeWord v).ctrl = fetchAddress := rfl
@[simp] theorem State.placeWord_mstep (s : State) (v : Byte) : (s.placeWord v).mstep = 0 := rfl
@[simp] theorem State.placeWord_mem (s : State) (v : Byte) : (s.placeWord v).mem = s.mem.write s.pc.toNat v := rfl
@[simp] theorem State.placeWord_fault (s : State) (v : Byte) : (s.placeWord v).fault = s.fault := rfl
@[simp] theorem State.placeWord_boundReset (s : State) (v : Byte) : (s.placeWord v).boundReset = s.boundReset := rfl
@[simp] theorem State.placeWord_outputs (s : State) (v : Byte) : (s.placeWord v).outputs = s.outputs := rfl
@[simp] theorem State.placeWord_fresh (s : State) (v : Byte) : (s.placeWord v).fresh = s.fresh := rfl

/-! ### The fault record (R33) -/

@[simp] theorem State.recordFault_pc (s : State) (f : Fault) : (s.recordFault f).pc = s.pc :=
    by unfold State.recordFault; split <;> rfl
@[simp] theorem State.recordFault_a (s : State) (f : Fault) : (s.recordFault f).a = s.a :=
    by unfold State.recordFault; split <;> rfl
@[simp] theorem State.recordFault_b (s : State) (f : Fault) : (s.recordFault f).b = s.b :=
    by unfold State.recordFault; split <;> rfl
@[simp] theorem State.recordFault_out (s : State) (f : Fault) : (s.recordFault f).out = s.out :=
    by unfold State.recordFault; split <;> rfl
@[simp] theorem State.recordFault_mar (s : State) (f : Fault) : (s.recordFault f).mar = s.mar :=
    by unfold State.recordFault; split <;> rfl
@[simp] theorem State.recordFault_ir (s : State) (f : Fault) : (s.recordFault f).ir = s.ir :=
    by unfold State.recordFault; split <;> rfl
@[simp] theorem State.recordFault_flags (s : State) (f : Fault) : (s.recordFault f).flags = s.flags :=
    by unfold State.recordFault; split <;> rfl
@[simp] theorem State.recordFault_pending (s : State) (f : Fault) : (s.recordFault f).pending = s.pending :=
    by unfold State.recordFault; split <;> rfl
@[simp] theorem State.recordFault_ctrl (s : State) (f : Fault) : (s.recordFault f).ctrl = s.ctrl :=
    by unfold State.recordFault; split <;> rfl
@[simp] theorem State.recordFault_mstep (s : State) (f : Fault) : (s.recordFault f).mstep = s.mstep :=
    by unfold State.recordFault; split <;> rfl
@[simp] theorem State.recordFault_mem (s : State) (f : Fault) : (s.recordFault f).mem = s.mem :=
    by unfold State.recordFault; split <;> rfl
@[simp] theorem State.recordFault_boundReset (s : State) (f : Fault) : (s.recordFault f).boundReset = s.boundReset :=
    by unfold State.recordFault; split <;> rfl
@[simp] theorem State.recordFault_outputs (s : State) (f : Fault) : (s.recordFault f).outputs = s.outputs :=
    by unfold State.recordFault; split <;> rfl
@[simp] theorem State.recordFault_fresh (s : State) (f : Fault) : (s.recordFault f).fresh = s.fresh :=
    by unfold State.recordFault; split <;> rfl
@[simp] theorem State.recordFault_fault (s : State) (f : Fault) : (s.recordFault f).fault = some (s.fault.getD f) :=
    by unfold State.recordFault; split <;> simp_all

end Sys2Proof.Machine
end

