-- ==== Sys2Proof/Laws/Cycle.lean ====
section
/-!
SUPPORT. What the phases of a cycle and a whole cycle can do, said once: the resolver, the write phase, the middle
phases, and one inversion lemma for `cycle` with its converse (spec/42_machine_core.md R150-R162).
-/
namespace Sys2Proof.Machine

variable {ι : Type} {V : Variant ι} {s t : State} {r : Resolved} {o : Option Byte}

@[simp] theorem driven_true (v : Byte) : driven true v = v := rfl

@[simp] theorem driven_false (v : Byte) : driven false v = 0#8 := rfl

/-- When the resolver answers: `MAR` is in range if memory is read, and the outputs are the wired OR and the adder's
flags (R101, R107). -/
theorem resolve_ok (h : resolve V s = .ok r) :
    (s.ctrl.ro = true → s.mar.toNat < V.cap) ∧ r.newPend = adderFlags s.a s.b s.ctrl.su ∧
    r.bus = driven s.ctrl.co s.pc ||| driven s.ctrl.ao s.a ||| driven s.ctrl.bo s.b |||
      driven s.ctrl.io (operandOut V s.ir) ||| driven s.ctrl.ro (s.mem.read s.mar.toNat) |||
      driven s.ctrl.eo (adderValue s.a s.b s.ctrl.su) := by
  unfold resolve memoryOut memRead at h
  cases hro : s.ctrl.ro <;> simp only [hro, if_true, if_false, Bool.false_eq_true] at h
  · cases h; simp
  · split at h
    · cases h
    · rename_i heq
      split at heq
      · cases heq; cases h; simp_all
      · cases heq

/-- When the resolver faults: memory is read out of range, and the fault is the address fault of `MAR` (R103). -/
theorem resolve_error {f : Fault} (h : resolve V s = .error f) :
    s.ctrl.ro = true ∧ V.cap ≤ s.mar.toNat ∧ f = .memoryAddressOutOfRange s.mar := by
  unfold resolve memoryOut memRead at h
  cases hro : s.ctrl.ro <;> simp only [hro, if_true, if_false, Bool.false_eq_true] at h
  · cases h
  · split at h
    · rename_i heq
      split at heq
      · cases heq
      · cases heq; cases h; exact ⟨rfl, by omega, rfl⟩
    · cases h

/-- The resolver answers when no memory is read or `MAR` is in range. -/
theorem resolve_of_inRange (V : Variant ι) (s : State) (h : s.ctrl.ro = true → s.mar.toNat < V.cap) :
    ∃ r, resolve V s = .ok r := by
  cases hr : resolve V s with
  | ok r => exact ⟨r, rfl⟩
  | error f =>
    obtain ⟨h1, h2, -⟩ := resolve_error hr
    exact absurd (h h1) (by omega)

/-- What the write phase leaves when it does not fault, field by field (R153). -/
theorem writePhase_ok {bus : Byte} (h : writePhase V bus s = .ok t) :
    t.pc = s.pc ∧ t.mar = (if s.ctrl.mi then bus else s.mar) ∧ t.out = (if s.ctrl.oi then bus else s.out) ∧
    t.a = (if s.ctrl.ai then bus else s.a) ∧ t.b = (if s.ctrl.bi then bus else s.b) ∧
    t.ir = (if s.ctrl.ii then bus else s.ir) ∧
    t.mem = (if s.ctrl.ri then s.mem.write t.mar.toNat bus else s.mem) ∧
    (s.ctrl.ri = true → t.mar.toNat < V.cap) ∧
    t.flags = s.flags ∧ t.pending = s.pending ∧ t.ctrl = s.ctrl ∧ t.mstep = s.mstep ∧ t.fault = s.fault ∧
    t.boundReset = s.boundReset ∧ t.outputs = s.outputs ∧ t.fresh = s.fresh := by
  unfold writePhase at h
  cases hri : s.ctrl.ri <;> simp only [hri, if_true, if_false, Bool.false_eq_true] at h
  · cases h; simp
  · split at h
    · cases h
    · rename_i hm
      obtain ⟨hlt, hmem⟩ := memWrite_ok hm
      cases h
      simp at hlt hmem ⊢
      exact ⟨hmem, hlt⟩

/-- The write phase answers when no memory is written or the address it is written at is in range. -/
theorem writePhase_of_inRange (V : Variant ι) (bus : Byte) (s : State)
    (h : s.ctrl.ri = true → s.mar.toNat < V.cap) (hmi : (s.ctrl.mi && s.ctrl.ri) = false) :
    ∃ t, writePhase V bus s = .ok t := by
  unfold writePhase
  cases hri : s.ctrl.ri
  · simp
  · have : s.ctrl.mi = false := by simpa [hri] using hmi
    simp [memWrite, this, h hri]

/-- The jump condition after the commit and the pending update of this cycle (R157). -/
theorem jumpTaken_updatePending (p : Flags) (s : State) : jumpTaken (updatePending p s) = jumpTaken s := rfl

section Middle

variable (V : Variant ι) (r : Resolved) (s : State)

@[simp] theorem middlePhases_a : (middlePhases V r s).a = s.a := by simp [middlePhases]
@[simp] theorem middlePhases_b : (middlePhases V r s).b = s.b := by simp [middlePhases]
@[simp] theorem middlePhases_out : (middlePhases V r s).out = s.out := by simp [middlePhases]
@[simp] theorem middlePhases_mar : (middlePhases V r s).mar = s.mar := by simp [middlePhases]
@[simp] theorem middlePhases_ir : (middlePhases V r s).ir = s.ir := by simp [middlePhases]
@[simp] theorem middlePhases_ctrl : (middlePhases V r s).ctrl = s.ctrl := by simp [middlePhases]
@[simp] theorem middlePhases_mstep : (middlePhases V r s).mstep = s.mstep := by simp [middlePhases]
@[simp] theorem middlePhases_mem : (middlePhases V r s).mem = s.mem := by simp [middlePhases]
@[simp] theorem middlePhases_fault : (middlePhases V r s).fault = s.fault := by simp [middlePhases]
@[simp] theorem middlePhases_boundReset : (middlePhases V r s).boundReset = s.boundReset := by simp [middlePhases]
@[simp] theorem middlePhases_outputs : (middlePhases V r s).outputs = s.outputs := by simp [middlePhases]
@[simp] theorem middlePhases_fresh : (middlePhases V r s).fresh = s.fresh := by simp [middlePhases]
@[simp] theorem middlePhases_pending : (middlePhases V r s).pending = r.newPend := by simp [middlePhases]
@[simp] theorem middlePhases_flags :
    (middlePhases V r s).flags = if s.ctrl.fi then s.pending else s.flags := by simp [middlePhases]

end Middle

/-- What a completed cycle did, said once. Either the machine was halted and nothing changed, or the nine phases ran:
the resolver answered, the write phase answered, the post-write `IR` decoded, and the state is that of the advance and
the return phase. -/
theorem cycle_next (h : cycle V s = .next (t, o)) :
    s.fault = none ∧
    ((s.ctrl.hlt = true ∧ t = s ∧ o = none) ∨
     (s.ctrl.hlt = false ∧ (s.ctrl.mi && s.ctrl.ri) = false ∧ ∃ r u i, resolve V s = .ok r ∧
      writePhase V r.bus s = .ok u ∧ V.decode u.ir = .ok i ∧ o = producedOutput s.ctrl r.bus ∧
      t = returnPhase o (advancePhase V i (middlePhases V r u)))) := by
  unfold cycle raiseFault at h
  split at h
  · cases h
  rename_i hf
  refine ⟨hf, ?_⟩
  unfold State.halted at h
  split at h
  · rename_i hh
    cases h
    exact .inl ⟨hh, rfl, rfl⟩
  rename_i hh
  refine .inr ⟨by simpa using hh, ?_⟩
  unfold runningCycle raiseFault at h
  split at h
  · cases h
  rename_i hmr
  refine ⟨by simpa using hmr, ?_⟩
  split at h
  · cases h
  rename_i r hr
  split at h
  · cases h
  rename_i u hu
  unfold finalPhases raiseFault at h
  split at h
  · cases h
  rename_i i hi
  rw [middlePhases_ir] at hi
  cases h
  exact ⟨r, u, i, hr, hu, hi, rfl, rfl⟩

/-- The converse: a running cycle whose phases answer completes. -/
theorem cycle_of_phases {u : State} {i : ι} (hf : s.fault = none) (hh : s.ctrl.hlt = false)
    (hmr : (s.ctrl.mi && s.ctrl.ri) = false) (hr : resolve V s = .ok r) (hu : writePhase V r.bus s = .ok u)
    (hi : V.decode u.ir = .ok i) :
    cycle V s = .next (returnPhase (producedOutput s.ctrl r.bus) (advancePhase V i (middlePhases V r u)),
      producedOutput s.ctrl r.bus) := by
  simp [cycle, hf, State.halted, hh, runningCycle, hmr, hr, hu, finalPhases, hi]

/-- The refusals and faults of a cycle (R162, R235): a refusal only for a word with `MI` and `RI`. -/
theorem cycle_refused {e : Refusal} (h : cycle V s = .refused e) :
    s.fault = none ∧ s.ctrl.hlt = false ∧ s.ctrl.mi = true ∧ s.ctrl.ri = true ∧ e = .addressAndMemoryIn := by
  unfold cycle raiseFault at h
  split at h
  · cases h
  rename_i hf
  unfold State.halted at h
  split at h
  · cases h
  rename_i hh
  unfold runningCycle raiseFault at h
  split at h
  · rename_i hmr
    cases h
    simp_all
  · split at h
    · cases h
    · split at h
      · cases h
      · unfold finalPhases raiseFault at h
        split at h <;> cases h

@[simp] theorem andThen_next (s : State) (f : State → Host.Outcome State Fault Refusal) :
    andThen (.next s) f = f s := rfl

@[simp] theorem andThen_fault (e : Fault) (f : State → Host.Outcome State Fault Refusal) :
    andThen (.fault e) f = .fault e := rfl

@[simp] theorem andThen_refused (e : Refusal) (f : State → Host.Outcome State Fault Refusal) :
    andThen (.refused e) f = .refused e := rfl

/-- A sequence answers a next state only through one. -/
theorem andThen_eq_next {p : Host.Outcome State Fault Refusal} {f : State → Host.Outcome State Fault Refusal} :
    andThen p f = .next t ↔ ∃ u, p = .next u ∧ f u = .next t := by
  cases p <;> simp [andThen]

theorem tick_next : tick V s = .next t ↔ ∃ o, cycle V s = .next (t, o) := by
  unfold tick
  cases cycle V s with
  | next p => obtain ⟨u, o⟩ := p; simp
  | fault f => simp
  | refused e => simp

@[simp] theorem cycles_zero (V : Variant ι) (s : State) : cycles V 0 s = .next s := rfl

theorem cycles_succ (V : Variant ι) (n : Nat) (s : State) : cycles V (n + 1) s = andThen (tick V s) (cycles V n) := rfl

/-- A faulted machine takes no cycle (R162). -/
theorem cycle_of_fault {f : Fault} (V : Variant ι) (h : s.fault = some f) : cycle V s = .fault f := by
  simp [cycle, h, raiseFault]

/-- A halted machine that is not faulted does not change (R151). -/
theorem cycle_of_halted (V : Variant ι) (hf : s.fault = none) (h : s.ctrl.hlt = true) : cycle V s = .next (s, none) := by
  simp [cycle, hf, State.halted, h]

end Sys2Proof.Machine
end

