-- ==== Sys2Proof/Laws/PerInstr.lean ====
section
/-!
SUPPORT. Statements made per instruction. Family `EncodingFields`: the byte of an instruction holds its opcode in bits
7:4 and its operand in bits 3:0 (spec/30_encoding.md R71, R83), and no execute word of its row holds both `MI` and `RI`
(spec/41_microsequencer.md R128).
-/
namespace Sys2Proof.Laws

open Sys2Proof.Machine

/-- The family's statement about one instruction. -/
def EncodingFields.Statement (i : Instr) : Prop :=
  opcodeField (encode i) = i.opcode ∧ operandField (encode i) = i.operand ∧
    ∀ w ∈ executeWords i, (w.mi && w.ri) = false

/-- The two fields of a byte made of two nibbles. -/
theorem fields_append (op k : Nibble) : opcodeField (op ++ k) = op ∧ operandField (op ++ k) = k := by
  constructor
  · apply BitVec.eq_of_getLsbD_eq
    intro n hn
    simp only [opcodeField, BitVec.getLsbD_extractLsb', BitVec.getLsbD_append]
    have : ¬ (4 + n < 4) := by omega
    simp [this, hn]
  · apply BitVec.eq_of_getLsbD_eq
    intro n hn
    simp only [operandField, BitVec.getLsbD_extractLsb', BitVec.getLsbD_append]
    simp [hn]

theorem EncodingFields.nop (x : Nibble) : EncodingFields.Statement (.nop x) :=
  ⟨(fields_append _ x).1, (fields_append _ x).2, by simp [executeWords, microNop]⟩

theorem EncodingFields.lda (k : Nibble) : EncodingFields.Statement (.lda k) :=
  ⟨(fields_append _ k).1, (fields_append _ k).2, by simp [executeWords, microLda]⟩

theorem EncodingFields.add (k : Nibble) : EncodingFields.Statement (.add k) :=
  ⟨(fields_append _ k).1, (fields_append _ k).2, by simp [executeWords, microAdd]⟩

theorem EncodingFields.sub (k : Nibble) : EncodingFields.Statement (.sub k) :=
  ⟨(fields_append _ k).1, (fields_append _ k).2, by simp [executeWords, microSub]⟩

theorem EncodingFields.sta (k : Nibble) : EncodingFields.Statement (.sta k) :=
  ⟨(fields_append _ k).1, (fields_append _ k).2, by simp [executeWords, microSta]⟩

theorem EncodingFields.ldi (k : Nibble) : EncodingFields.Statement (.ldi k) :=
  ⟨(fields_append _ k).1, (fields_append _ k).2, by simp [executeWords, microLdi]⟩

theorem EncodingFields.jmp (k : Nibble) : EncodingFields.Statement (.jmp k) :=
  ⟨(fields_append _ k).1, (fields_append _ k).2, by simp [executeWords, microJmp]⟩

theorem EncodingFields.jc (k : Nibble) : EncodingFields.Statement (.jc k) :=
  ⟨(fields_append _ k).1, (fields_append _ k).2, by simp [executeWords, microJc]⟩

theorem EncodingFields.jz (k : Nibble) : EncodingFields.Statement (.jz k) :=
  ⟨(fields_append _ k).1, (fields_append _ k).2, by simp [executeWords, microJz]⟩

theorem EncodingFields.out (x : Nibble) : EncodingFields.Statement (.out x) :=
  ⟨(fields_append _ x).1, (fields_append _ x).2, by simp [executeWords, microOut]⟩

theorem EncodingFields.hlt (x : Nibble) : EncodingFields.Statement (.hlt x) :=
  ⟨(fields_append _ x).1, (fields_append _ x).2, by simp [executeWords, microHlt]⟩

/-- Every instruction has the family's statement. -/
theorem EncodingFields.all (i : Instr) : EncodingFields.Statement i := by
  cases i with
  | nop x => exact EncodingFields.nop x
  | lda k => exact EncodingFields.lda k
  | add k => exact EncodingFields.add k
  | sub k => exact EncodingFields.sub k
  | sta k => exact EncodingFields.sta k
  | ldi k => exact EncodingFields.ldi k
  | jmp k => exact EncodingFields.jmp k
  | jc k => exact EncodingFields.jc k
  | jz k => exact EncodingFields.jz k
  | out x => exact EncodingFields.out x
  | hlt x => exact EncodingFields.hlt x

end Sys2Proof.Laws
end

