-- ==== Sys2Proof/Laws/Run.lean ====
section
/-!
SUPPORT. What the host interface can do, said once: the machine the caller holds after a call, the record kept by a
completed cycle, and one equation for each way a run goes on or ends (spec/42_machine_core.md R165, R166).
-/
namespace Sys2Proof.Machine

variable {ι : Type} {V : Variant ι} {s t : State} {o : Option Byte} {f : Fault}

@[simp] theorem heldAfter_next (s t : State) : s.heldAfter (.next t) = t := rfl

@[simp] theorem heldAfter_fault (s : State) (f : Fault) : s.heldAfter (.fault f) = s.recordFault f := rfl

@[simp] theorem heldAfter_refused (s : State) (e : Refusal) : s.heldAfter (.refused e) = s := rfl

theorem construct_of_wellFormed [Decidable V.WellFormed] (h : V.WellFormed) : construct V = .next State.reset :=
  if_pos h

theorem construct_of_not_wellFormed [Decidable V.WellFormed] (h : ¬ V.WellFormed) :
    construct V = .refused .illFormedVariant := if_neg h

theorem tick_fault : tick V s = .fault f ↔ cycle V s = .fault f := by
  unfold tick
  cases cycle V s <;> simp

theorem tick_refused {e : Refusal} : tick V s = .refused e ↔ cycle V s = .refused e := by
  unfold tick
  cases cycle V s <;> simp

/-- A faulting cycle leaves the caller a machine with that fault recorded (R162). -/
theorem cycleHeld_of_fault (h : cycle V s = .fault f) : cycleHeld V s = s.recordFault f := by
  rw [cycleHeld, tick_fault.mpr h, heldAfter_fault]

/-- A refused cycle leaves the caller's machine as it was. -/
theorem cycleHeld_of_refused {e : Refusal} (h : cycle V s = .refused e) : cycleHeld V s = s := by
  rw [cycleHeld, tick_refused.mpr h, heldAfter_refused]

/-- The fault a cycle raises is the one its machine then has on record: an earlier record is what it raises (R162). -/
theorem recordFault_fault_of_cycle (h : cycle V s = .fault f) : (s.recordFault f).fault = some f := by
  cases hf : s.fault with
  | none => simp [hf]
  | some g =>
    rw [cycle_of_fault V hf] at h
    cases h
    simp [hf]

/-- A completed cycle adds to the record of outputs exactly what it returns (R161). -/
theorem cycle_outputs (h : cycle V s = .next (t, o)) : t.outputs = s.outputs ++ o.toList := by
  obtain ⟨-, ⟨-, rfl, rfl⟩ | ⟨-, -, r, u, i, -, hu, -, -, rfl⟩⟩ := cycle_next h
  · simp
  · obtain ⟨-, -, -, -, -, -, -, -, -, -, -, -, -, -, hout, -⟩ := writePhase_ok hu
    simp [hout]

@[simp] theorem run_of_halted (V : Variant ι) (n : Nat) (h : s.halted = true) :
    run V n s = { outs := [], ended := .halted, final := s } := by
  cases n <;> simp [run, h]

theorem run_zero (h : s.halted = false) : run V 0 s = { outs := [], ended := .outOfFuel, final := s } := by
  simp [run, h]

theorem run_succ_next (n : Nat) (hh : s.halted = false) (h : cycle V s = .next (t, o)) :
    run V (n + 1) s = { run V n t with outs := o.toList ++ (run V n t).outs } := by
  simp [run, hh, h]

theorem run_succ_fault (n : Nat) (hh : s.halted = false) (h : cycle V s = .fault f) :
    run V (n + 1) s = { outs := [], ended := .faulted f, final := s.recordFault f } := by
  simp [run, hh, h, cycleHeld_of_fault h]

theorem run_succ_refused {e : Refusal} (n : Nat) (hh : s.halted = false) (h : cycle V s = .refused e) :
    run V (n + 1) s = { outs := [], ended := .refused e, final := s } := by
  simp [run, hh, h, cycleHeld_of_refused h]

end Sys2Proof.Machine
end

