-- ==== Sys2Proof/Laws/Variants.lean ====
section
/-!
SUPPORT. The reference instance passes the record checks (spec/00_scope.md R8, spec/41_microsequencer.md R141), its
fields by name, and what instruction-out drives for a fetched instruction (spec/40_bus_resolver_alu.md R102).
-/
namespace Sys2Proof.Machine

@[simp] theorem narrow_cap : narrow.cap = 16 := rfl

@[simp] theorem narrow_opMask : narrow.opMask = 0x0F#8 := rfl

@[simp] theorem narrow_bound : narrow.bound = 5 := rfl

@[simp] theorem narrow_decode (b : Byte) : narrow.decode b = decode b := rfl

@[simp] theorem narrow_microcode (i : Instr) (m : Nat) : narrow.microcode i m = microcode i m := rfl

@[simp] theorem microcode_zero (i : Instr) : microcode i 0 = fetchAddress := rfl

@[simp] theorem microcode_one (i : Instr) : microcode i 1 = fetchOpcode := rfl

theorem microcode_execute (i : Instr) (m : Nat) : microcode i (m + 2) = (executeWords i).getD m CtrlWord.empty := rfl

/-- The reference table passes every check of R128 (R141). -/
theorem narrow_wellFormed : narrow.WellFormed where
  cap_powerOfTwo := by decide
  fetch0 _ := rfl
  fetch1 _ := rfl
  words i m := by
    match m with
    | 0 => rfl
    | 1 => rfl
    | m + 2 =>
      rw [narrow_microcode, microcode_execute]
      rw [List.getD_eq_getElem?_getD]
      cases h : (executeWords i)[m]? with
      | none => rfl
      | some w => simp [wordOk, (Laws.EncodingFields.all i).2.2 w (List.mem_of_getElem? h)]

/-- The reference table has no entry above microstep 4 (R141). -/
theorem narrow_table_ends (i : Instr) (m : Nat) (h : 5 ≤ m) : narrow.microcode i m = CtrlWord.empty := by
  obtain ⟨n, rfl⟩ : ∃ n, m = n + 2 := ⟨m - 2, by omega⟩
  rw [narrow_microcode, microcode_execute, List.getD_eq_default]
  have : (executeWords i).length ≤ 3 := by cases i <;> simp [executeWords, microNop, microLda, microAdd, microSub,
    microSta, microLdi, microJmp, microJc, microJz, microOut, microHlt]
  omega

/-- A number and its predecessor share, above bit 0, the bits of the half and its predecessor. -/
theorem and_pred_bits (m : Nat) :
    (2 * m + 1) &&& (2 * m) = 2 * m ∧ (0 < m → (2 * m) &&& (2 * m - 1) = 2 * (m &&& (m - 1))) := by
  constructor
  · have := Nat.land_bit true m false m
    simpa [Nat.bit] using this
  · intro h
    have := Nat.land_bit false m true (m - 1)
    simp only [Nat.bit, Bool.cond_false, Bool.cond_true, Bool.false_and] at this
    rw [show 2 * (m - 1) + 1 = 2 * m - 1 by omega] at this
    exact this

/-- `isPowerOfTwo` holds exactly of the powers of two (R7). -/
theorem isPowerOfTwo_iff (n : Nat) : isPowerOfTwo n = true ↔ ∃ k, n = 2 ^ k := by
  induction n using Nat.strong_induction_on with
  | h n ih =>
    obtain ⟨m, rfl | rfl⟩ := n.even_or_odd'
    · rcases Nat.eq_zero_or_pos m with rfl | hm
      · exact iff_of_false (by decide) fun ⟨k, hk⟩ => by have := Nat.two_pow_pos k; omega
      · have hhalf : isPowerOfTwo (2 * m) = isPowerOfTwo m := by
          simp [isPowerOfTwo, (and_pred_bits m).2 hm, bne, beq_eq_decide]
        rw [hhalf, ih m (by omega)]
        constructor
        · rintro ⟨k, rfl⟩; exact ⟨k + 1, by rw [Nat.pow_succ']⟩
        · rintro ⟨_ | k, hk⟩
          · omega
          · exact ⟨k, by rw [Nat.pow_succ'] at hk; omega⟩
    · have hbits : isPowerOfTwo (2 * m + 1) = decide (m = 0) := by
        simp [isPowerOfTwo, (and_pred_bits m).1, beq_eq_decide]
      rw [hbits, decide_eq_true_iff]
      constructor
      · rintro rfl; exact ⟨0, rfl⟩
      · rintro ⟨_ | k, hk⟩
        · omega
        · rw [Nat.pow_succ'] at hk; omega

/-- A record with an executable word of both `MI` and `RI` is not well formed (R128). -/
theorem not_wellFormed_of_word {ι : Type} {V : Variant ι} {i : ι} {m : Nat} (h : wordOk (V.microcode i m) = false) :
    ¬ V.WellFormed := fun hw => by simp [hw.words i m] at h

@[simp] theorem extendedNarrow_decode {ι : Type} (f : Nibble → Option ι) (mc : ι → Nat → CtrlWord) (b : Byte) :
    (extendedNarrow f mc).decode b = decodeByOpcode f b := rfl

@[simp] theorem decodeByOpcode_ok {ι : Type} {f : Nibble → Option ι} {b : Byte} {i : ι} :
    decodeByOpcode f b = .ok i ↔ f (opcodeField b) = some i := by
  unfold decodeByOpcode
  split <;> simp_all

/-- Masking a byte with 0x0F keeps the operand field, widened with zeros (R72). -/
theorem and_operandMask (b : Byte) : b &&& 0x0F#8 = (operandField b).setWidth 8 := by
  apply BitVec.eq_of_getLsbD_eq
  intro n hn
  have hmask : ∀ n, n < 8 → (0x0F#8).getLsbD n = decide (n < 4) := by decide
  rw [BitVec.getLsbD_and, hmask n hn, BitVec.getLsbD_setWidth, operandField, BitVec.getLsbD_extractLsb']
  by_cases h : n < 4 <;> simp [h, hn]

/-- What instruction-out drives while an instruction is in `IR`: its operand, widened with zeros (R72, R102). -/
theorem operandOut_encode (i : Instr) : operandOut narrow (encode i) = i.operand.setWidth 8 := by
  rw [operandOut, narrow_opMask, and_operandMask, (Laws.EncodingFields.all i).2.1]

/-- An operand is an address inside the array of `Narrow`. -/
theorem operand_lt (k : Nibble) : (k.setWidth 8).toNat < 16 := by
  have := k.isLt
  simp only [BitVec.toNat_setWidth]
  omega

end Sys2Proof.Machine
end

