-- ==== Sys2Proof/Tests/Slice0.lean ====
section
/-!
SUPPORT. The model's own tests, expected results from spec/95_test_vectors.md (cited row by row), and the witnesses of
the statements' hypotheses.
-/
namespace Sys2Proof.Tests

open Sys2Proof.Machine

/-! ### Helpers -/

/-- An outcome is a next state with a property. -/
def nextIs {σ φ ρ : Type} (o : Host.Outcome σ φ ρ) (p : σ → Bool) : Bool :=
  match o with
  | .next s => p s
  | .fault _ => false
  | .refused _ => false

/-- An outcome is a given fault. -/
def faultIs {σ ρ : Type} (o : Host.Outcome σ Fault ρ) (f : Fault) : Bool :=
  match o with
  | .next _ => false
  | .fault g => g == f
  | .refused _ => false

/-- An outcome is a given refusal. -/
def refusedIs {σ φ : Type} (o : Host.Outcome σ φ Refusal) (r : Refusal) : Bool :=
  match o with
  | .next _ => false
  | .fault _ => false
  | .refused q => q == r

/-- The state after construction. -/
def fresh : State := State.reset

/-- A machine about to fetch the byte at an address. -/
def atByte (p : Byte) (byte : Byte) (s : State) : State := { s with pc := p, mem := s.mem.write p.toNat byte }

/-- A machine at a microstep with a control word. -/
def atWord (w : CtrlWord) (m : Nat) (s : State) : State := { s with ctrl := w, mstep := m }

/-! ### Well-formedness: one ill-formed record for each check, refused before any cycle (R8, R128)

`narrowWith` is `Narrow` with one word of its table put in another's place, at a microstep below 8; its checks are decided
by the computation of `Variant.decideWellFormed`. -/

/-- Every instruction of `Narrow`. -/
def instrs : List Instr :=
  (List.range 16).flatMap fun n =>
    let k := BitVec.ofNat 4 n
    [.nop k, .lda k, .add k, .sub k, .sta k, .ldi k, .jmp k, .jc k, .jz k, .out k, .hlt k]

theorem mem_instrs (i : Instr) : i ∈ instrs := by
  have h : ∀ k : Nibble, ∀ j ∈ [Instr.nop k, .lda k, .add k, .sub k, .sta k, .ldi k, .jmp k, .jc k, .jz k, .out k, .hlt k],
      j ∈ instrs := by decide +kernel
  cases i <;> rename_i k <;> exact h k _ (by simp)

/-- `Narrow` with another capacity and with one microstep of every row replaced. -/
def narrowWith (cap m : Nat) (w : CtrlWord) : Variant Instr :=
  { narrow with cap := cap, microcode := fun i n => if n = m then w else microcode i n }

/-- Its construction, with the checks computed. -/
def constructNarrowWith (cap m : Nat) (w : CtrlWord) (h : m < 8) : Host.Outcome State Fault Refusal :=
  @construct _ (narrowWith cap m w) <| Variant.decideWellFormed _ instrs 8 mem_instrs fun i n hn => by
    have : n ≠ m := by omega
    simpa [narrowWith, this] using narrow_table_ends i n (by omega)

theorem test_construct_narrow :
    nextIs (constructNarrowWith 16 7 CtrlWord.empty (by decide)) (fun s => s == State.reset) = true := by decide +kernel

theorem test_construct_refuses_capacity_12 :
    refusedIs (constructNarrowWith 12 7 CtrlWord.empty (by decide)) .illFormedVariant = true := by decide +kernel

theorem test_construct_refuses_wrong_fetch_word_0 :
    refusedIs (constructNarrowWith 16 0 { co := true } (by decide)) .illFormedVariant = true := by decide +kernel

theorem test_construct_refuses_wrong_fetch_word_1 :
    refusedIs (constructNarrowWith 16 1 { hlt := true } (by decide)) .illFormedVariant = true := by decide +kernel

theorem test_construct_refuses_word_with_mi_and_ri :
    refusedIs (constructNarrowWith 16 3 { mi := true, ri := true } (by decide)) .illFormedVariant = true := by
  decide +kernel

/-- R128 says "no word", the ones past the safety bound included. -/
theorem test_construct_refuses_word_past_the_bound :
    refusedIs (constructNarrowWith 16 6 { mi := true, ri := true } (by decide)) .illFormedVariant = true := by
  decide +kernel

/-- R128: "A word with `HLT` may contain anything". -/
theorem test_construct_admits_halt_word_with_mi_and_ri :
    nextIs (constructNarrowWith 16 3 { hlt := true, mi := true, ri := true } (by decide)) (fun s => s == State.reset) =
      true := by decide +kernel

/-- R128: "every `i`", an instruction no byte decodes to included. -/
theorem test_row_no_byte_decodes_to_is_checked :
    ¬ (extendedNarrow (fun _ => none)
        (fun (_ : Bool) m => if m = 2 then { mi := true, ri := true } else microRow [] m)).WellFormed :=
  not_wellFormed_of_word (i := true) (m := 2) rfl

theorem test_image_of_16_fits : narrow.imageFits (List.replicate 16 0) = true := by decide

theorem test_image_of_17_does_not_fit : narrow.imageFits (List.replicate 17 0) = false := by decide

/-! ### Decoding: words written out bit by bit from R76, and V-DEC -/

theorem test_decode_nop : decode 0b00000000 = .ok (.nop 0) := by decide
theorem test_decode_nop_ignored_bits : decode 0b00001001 = .ok (.nop 9) := by decide
theorem test_decode_lda : decode 0b00011110 = .ok (.lda 14) := by decide
theorem test_decode_add : decode 0b00101111 = .ok (.add 15) := by decide
theorem test_decode_sub : decode 0b00111111 = .ok (.sub 15) := by decide
theorem test_decode_sta : decode 0b01001101 = .ok (.sta 13) := by decide
theorem test_decode_ldi : decode 0b01011111 = .ok (.ldi 15) := by decide
theorem test_decode_jmp : decode 0b01100011 = .ok (.jmp 3) := by decide
theorem test_decode_jc : decode 0b01110000 = .ok (.jc 0) := by decide
theorem test_decode_jz : decode 0b10001010 = .ok (.jz 10) := by decide
theorem test_decode_out : decode 0b11100111 = .ok (.out 7) := by decide
theorem test_decode_hlt : decode 0b11111111 = .ok (.hlt 15) := by decide
theorem test_decode_0x90_fails : decode 0b10010000 = .error (.undefinedOpcode 0x90) := by decide
theorem test_decode_0xDF_fails : decode 0b11011111 = .error (.undefinedOpcode 0xDF) := by decide

/-- V-DEC: 176 of the 256 bytes decode. -/
theorem test_decode_count :
    ((List.range 256).filter fun n => match decode (BitVec.ofNat 8 n) with | .ok _ => true | .error _ => false).length = 176 := by
  decide +kernel

theorem test_table_word : decodeTableWord 8 0x1E = some (.lda 14) := by decide

theorem test_step_runs_placed_word :
    nextIs (step (State.reset.withFetchWord 8 0x57)) (fun t => t.a == 7 && t.pc == 1) = true := by decide

/-! ### Adder: R110 and V-ALU -/

theorem test_adder_200_plus_100 :
    adderValue 200 100 false = 44 ∧ adderFlags 200 100 false = { z := false, c := true } := by decide

theorem test_adder_128_plus_128 : adderFlags 128 128 false = { z := true, c := true } := by decide

theorem test_adder_5_minus_6 :
    adderValue 5 6 true = 255 ∧ adderFlags 5 6 true = { z := false, c := true } := by decide

theorem test_adder_5_minus_5 : adderFlags 5 5 true = { z := true, c := false } := by decide

/-! ### Bus resolver: V-BUS -/

/-- B1. -/
theorem test_bus_pc_or_a :
    resolve narrow (atWord { co := true, ao := true } 2 { fresh with pc := 0x05, a := 0x30 }) =
      .ok { bus := 0x35, newPend := { z := false, c := false } } := by decide

/-- B2. -/
theorem test_bus_operand_bits_only :
    resolve narrow (atWord { io := true } 2 { fresh with ir := 0x1B }) =
      .ok { bus := 0x0B, newPend := { z := true, c := false } } := by decide

/-- B5. -/
theorem test_bus_memory_out_of_range :
    resolve narrow (atWord { ro := true } 2 { fresh with mar := 16 }) = .error (.memoryAddressOutOfRange 16) := by decide

/-- B9. -/
theorem test_bus_six_drivers :
    resolve narrow (atWord { co := true, ao := true, bo := true, io := true, ro := true, eo := true } 2
      { fresh with pc := 1, a := 2, b := 4, ir := 0x18, mar := 0, mem := [(0, 0x10)] }) =
      .ok { bus := 0x1F, newPend := { z := false, c := false } } := by decide

/-! ### Single cycles: V-CORE -/

/-- C1: the old pending pair is committed. -/
theorem test_cycle_flag_commit :
    nextIs (cycle narrow (atWord { fi := true } 2
      { fresh with a := 1, b := 2, flags := { z := false, c := true }, pending := { z := true, c := false } }))
      (fun p => p.1.flags == { z := true, c := false } && p.1.pending == { z := false, c := false } &&
        p.1.mstep == 3 && p.1.ctrl == {}) = true := by decide

/-- C2: the jump reads the flag just committed. -/
theorem test_cycle_jump_after_commit :
    nextIs (cycle narrow (atWord { io := true, jz := true, fi := true } 2
      { fresh with ir := 0x85, pc := 4, pending := { z := true, c := false } })) (fun p => p.1.pc == 5) = true := by decide

/-- C3: jump, then increment. -/
theorem test_cycle_jump_then_increment :
    nextIs (cycle narrow (atWord { io := true, j := true, ce := true } 2 { fresh with ir := 0x67, pc := 4 }))
      (fun p => p.1.pc == 8) = true := by decide

/-- C4. -/
theorem test_cycle_increment_wraps :
    nextIs (cycle narrow (atWord { ce := true } 2 { fresh with pc := 15 })) (fun p => p.1.pc == 0) = true := by decide

/-- C5: the safety bound, with a table whose NOP has no `RST`. -/
theorem test_cycle_safety_bound :
    nextIs (cycle { narrow with microcode := fun _ m => microRow [] m } (atWord {} 5 fresh))
      (fun p => p.1.mstep == 0 && p.1.boundReset && p.1.ctrl == { co := true, mi := true }) = true := by decide

/-- C6. -/
theorem test_cycle_returns_output :
    nextIs (cycle narrow (atWord { ao := true, oi := true, rst := true } 2 { fresh with a := 9, ir := 0xE0 }))
      (fun p => p.2 == some 9 && p.1.out == 9 && p.1.mstep == 0 && p.1.outputs == [9]) = true := by decide

/-- C7. -/
theorem test_cycle_decode_error :
    faultIs (cycle narrow (atWord { ro := true, ii := true, ce := true } 1
      { fresh with pc := 6, mar := 6, mem := [(6, 0xA0)] })) (.decodeError 0xA0) = true := by decide

/-- C8: read before write. -/
theorem test_cycle_read_before_write :
    nextIs (cycle narrow (atWord { ao := true, ro := true, ri := true } 2
      { fresh with a := 0x0F, mar := 5, mem := [(5, 0xF0)] })) (fun p => p.1.mem == [(5, 0xFF)]) = true := by decide

/-- C10. -/
theorem test_cycle_halted :
    nextIs (cycle narrow (atWord { hlt := true } 2 { fresh with ir := 0xF0, pc := 4 }))
      (fun p => p.2 == none && p.1 == atWord { hlt := true } 2 { fresh with ir := 0xF0, pc := 4 }) = true := by decide

/-- U17: a word with `MI` and `RI` is refused. -/
theorem test_cycle_refuses_mi_with_ri :
    refusedIs (cycle narrow (atWord { mi := true, ri := true } 2 fresh)) .addressAndMemoryIn = true := by decide

/-! ### Whole instructions: V-INS, at most two each -/

theorem test_nop_at_15 : nextIs (step (atByte 15 0x00 fresh)) (fun t => t.pc == 0 && t.mar == 15) = true := by decide

theorem test_nop_operand_bits_set :
    nextIs (step (atByte 3 0x09 { fresh with flags := { z := true, c := true } }))
      (fun t => t.pc == 4 && t.ir == 0x09 && t.flags == { z := true, c := true } &&
        t.pending == { z := true, c := false }) = true := by decide

theorem test_lda_of_itself :
    nextIs (step (atByte 5 0x15 fresh)) (fun t => t.a == 0x15 && t.mar == 5 && t.pc == 6) = true := by decide

theorem test_lda_pending_from_old_a :
    nextIs (step (atByte 0 0x1F { fresh with a := 0x80, b := 0x80, mem := [(15, 0x80)] }))
      (fun t => t.a == 0x80 && t.flags == { z := false, c := false } && t.pending == { z := true, c := true }) = true := by
  decide

theorem test_sta_15 :
    nextIs (step (atByte 2 0x4F { fresh with a := 0x99 }))
      (fun t => t.mem.read 15 == 0x99 && t.mar == 15 && t.pc == 3) = true := by decide

theorem test_sta_over_itself :
    nextIs (step (atByte 6 0x46 fresh)) (fun t => t.mem == [] && t.pc == 7) = true := by decide

theorem test_ldi_15 :
    nextIs (step (atByte 1 0x5F fresh)) (fun t => t.a == 15 && t.mar == 1 && t.pc == 2) = true := by decide

theorem test_ldi_0 :
    nextIs (step (atByte 1 0x50 { fresh with a := 9 }))
      (fun t => t.a == 0 && t.pending == { z := false, c := false }) = true := by decide

theorem test_add_wrap_b0_0 :
    nextIs (step (atByte 0 0x2F { fresh with a := 200, mem := [(15, 100)] }))
      (fun t => t.a == 44 && t.b == 100 && t.flags == { z := false, c := false } &&
        t.pending == { z := false, c := true }) = true := by decide

theorem test_add_stale_pending_ignored :
    nextIs (step (atByte 0 0x2F { fresh with flags := { z := false, c := true }, pending := { z := false, c := true } }))
      (fun t => t.a == 0 && t.flags == { z := true, c := false }) = true := by decide

theorem test_sub_a_0_b0_0 :
    nextIs (step (atByte 0 0x3F { fresh with mem := [(15, 1)] }))
      (fun t => t.a == 255 && t.b == 1 && t.flags == { z := true, c := false } &&
        t.pending == { z := false, c := true }) = true := by decide

theorem test_sub_a_255 :
    nextIs (step (atByte 0 0x3F { fresh with a := 255, b := 1, mem := [(15, 1)] }))
      (fun t => t.a == 254 && t.flags == { z := true, c := true } && t.pending == { z := false, c := false }) = true := by
  decide

theorem test_jmp_3 : nextIs (step (atByte 12 0x63 fresh)) (fun t => t.pc == 3 && t.mar == 12) = true := by decide

theorem test_jmp_to_itself : nextIs (step (atByte 4 0x64 fresh)) (fun t => t.pc == 4) = true := by decide

theorem test_jc_taken :
    nextIs (step (atByte 2 0x70 { fresh with flags := { z := false, c := true } }))
      (fun t => t.pc == 0 && t.flags == { z := false, c := true }) = true := by decide

theorem test_jc_not_taken :
    nextIs (step (atByte 2 0x70 { fresh with flags := { z := true, c := false } })) (fun t => t.pc == 3) = true := by decide

theorem test_jz_taken :
    nextIs (step (atByte 3 0x85 { fresh with flags := { z := true, c := false } })) (fun t => t.pc == 5) = true := by decide

theorem test_jz_not_taken :
    nextIs (step (atByte 3 0x85 { fresh with flags := { z := false, c := true } })) (fun t => t.pc == 4) = true := by decide

theorem test_out :
    nextIs (step (atByte 2 0xE0 { fresh with a := 42 }))
      (fun t => t.out == 42 && t.outputs == [42] && t.pc == 3) = true := by decide

theorem test_out_of_0_operand_bits_set :
    nextIs (step (atByte 2 0xEF fresh)) (fun t => t.out == 0 && t.outputs == [0]) = true := by decide

theorem test_hlt :
    nextIs (step (atByte 3 0xF0 { fresh with a := 1 }))
      (fun t => isHalted t && t.mstep == 2 && t.pc == 4 && t.mar == 3 && t.ir == 0xF0 && t.a == 1) = true := by decide

theorem test_hlt_at_15_operand_bits_set :
    nextIs (step (atByte 15 0xFA fresh)) (fun t => isHalted t && t.pc == 0 && t.ir == 0xFA) = true := by decide

theorem test_undefined_0xA5_at_15 : faultIs (step (atByte 15 0xA5 fresh)) (.decodeError 0xA5) = true := by decide

/-! ### Host interface: V-FAULT -/

/-- F2. -/
theorem test_set_input_too_long :
    faultIs (setInput narrow (List.replicate 17 1) fresh) (.inputTooLong 17) = true := by decide

/-- F3. -/
theorem test_set_input_of_16 :
    nextIs (setInput narrow (List.replicate 16 7) fresh)
      (fun t => t.mem.read 0 == 7 && t.mem.read 15 == 7 && !t.fresh) = true := by decide

/-- F2: the fault is recorded, memory is as it was, and the machine takes no cycle (R230, R232). -/
theorem test_set_input_too_long_is_recorded :
    let s := setInputHeld narrow (List.replicate 17 1) fresh
    s.fault = some (.inputTooLong 17) ∧ s.mem = [] ∧ faultIs (cycle narrow s) (.inputTooLong 17) = true := by decide

/-- R263 and P7: boot with `00 57 E0 F0`; the second byte is LDI 7 at address 1, and execution starts at address 0. -/
theorem test_boot :
    nextIs (@boot _ narrow (.isTrue narrow_wellFormed) [0x00, 0x57, 0xE0, 0xF0])
      (fun t => t.pc == 0 && t.mem == [(1, 0x57), (2, 0xE0), (3, 0xF0)] && t.ctrl == { co := true, mi := true }) = true := by
  decide +kernel

theorem test_set_input_twice_refused :
    refusedIs (setInput narrow [1] { fresh with fresh := false }) .inputAfterStart = true := by decide

/-- S4: a run on a halted machine. -/
theorem test_run_halted :
    (run narrow 3 (atWord { hlt := true } 2 fresh)).outs = [] ∧
      (run narrow 3 (atWord { hlt := true } 2 fresh)).ended = .halted := by decide

/-- F1: the second cycle of the run faults and the fault is recorded. -/
theorem test_run_decode_error :
    (run narrow 2 { fresh with mem := [(0, 0x90)] }).ended = .faulted (.decodeError 0x90) ∧
      (run narrow 2 { fresh with mem := [(0, 0x90)] }).final.fault = some (.decodeError 0x90) := by decide

/-- R166 on LDI 7, OUT, OUT, HLT (R182, R211, R212): both outputs, in order, and the halted end. -/
theorem test_run_two_outputs :
    (run narrow 20 { fresh with mem := [(0, 0x57), (1, 0xE0), (2, 0xE0), (3, 0xF0)] }).outs = [7, 7] ∧
      (run narrow 20 { fresh with mem := [(0, 0x57), (1, 0xE0), (2, 0xE0), (3, 0xF0)] }).ended = .halted := by
  decide +kernel

/-! ### Witnesses of the statements' hypotheses

Each is named after its statement or statements and shows a concrete state and operands that meet all its hypotheses;
where a statement has clauses at the two sides of a boundary, both sides are shown. -/

/-- ConstructRefusesIllFormedRecords: a record that meets the three premises, and an ill-formed one of each kind; among
them a capacity at each side of a power of two, and words with and without `HLT` at the last microstep looked up and past
it. -/
theorem witness_ConstructRefusesIllFormedRecords :
    narrow.WellFormed ∧ (∃ n, narrow.cap = 2 ^ n) ∧ (∃ n, 1 = 2 ^ n) ∧ isPowerOfTwo 0 = false ∧
      isPowerOfTwo 15 = false ∧ isPowerOfTwo 17 = false ∧
      (narrowWith 16 0 {}).microcode (.nop 0) 0 ≠ { co := true, mi := true } ∧
      (narrowWith 16 1 {}).microcode (.nop 0) 1 ≠ { ro := true, ii := true, ce := true } ∧
      (narrowWith 16 5 { mi := true, ri := true }).microcode (.hlt 15) 5 = { mi := true, ri := true } ∧
      (narrowWith 16 6 { mi := true, ri := true }).microcode (.hlt 15) 6 = { mi := true, ri := true } ∧
      wordOk { mi := true, ri := true } = false ∧ wordOk { hlt := true, mi := true, ri := true } = true :=
  ⟨narrow_wellFormed, ⟨4, rfl⟩, ⟨0, rfl⟩, by decide, by decide, by decide, by decide, by decide, by decide, by decide, rfl,
    rfl⟩

/-- SetInputLoadsFreshMachine: lengths 16 and 17, and a machine that is not fresh. -/
theorem witness_SetInputLoadsFreshMachine :
    fresh.fault = none ∧ fresh.mem.wf = true ∧ fresh.fresh = true ∧ (List.replicate 16 (7 : Byte)).length ≤ narrow.cap ∧
      narrow.cap < (List.replicate 17 (7 : Byte)).length ∧ ({ fresh with fresh := false } : State).fresh = false := by
  decide

/-- RunCollectsOutputsInOrder: the four ends, and a cycle that completes. -/
theorem witness_RunCollectsOutputsInOrder :
    (run narrow 0 (atWord { hlt := true } 2 fresh)).ended = .halted ∧
      (run narrow 1 { fresh with fault := some (.inputTooLong 17) }).ended = .faulted (.inputTooLong 17) ∧
      (run narrow 1 fresh).ended = .outOfFuel ∧
      (run narrow 1 (atWord { mi := true, ri := true } 2 fresh)).ended = .refused .addressAndMemoryIn ∧
      isHalted (atWord { hlt := true } 2 fresh) = true ∧ nextIs (cycle narrow fresh) (fun _ => true) = true := by decide

/-- EveryFaultIsRecorded: an image one byte too long, a cycle that faults, and a machine that is faulted. -/
theorem witness_EveryFaultIsRecorded :
    fresh.fault = none ∧ fresh.fresh = true ∧ narrow.cap < (List.replicate 17 (7 : Byte)).length ∧
      faultIs (cycle narrow (atWord { ro := true } 2 { fresh with mar := 16 })) (.memoryAddressOutOfRange 16) = true ∧
      (fresh.recordFault (.decodeError 0x90)).fault = some (.decodeError 0x90) := by decide

/-- EncodeOfDecode and OperandNeverSelectsMicrocode. -/
theorem witness_EncodeOfDecode :
    decode 0x1E = .ok (.lda 14) ∧ decode 0x10 = .ok (.lda 0) ∧ opcodeField 0x1E = opcodeField 0x10 ∧
      decodeByOpcode (fun op => if op = 9 then some true else none) 0x9F = .ok true ∧
      decodeByOpcode (fun op => if op = 9 then some true else none) 0xAF = .error (.undefinedOpcode 0xAF) := by decide

/-- UndefinedOpcodesFail: both sides of both ends of the range. -/
theorem witness_UndefinedOpcodesFail :
    decode 0x8F = .ok (.jz 15) ∧ decode 0x90 = .error (.undefinedOpcode 0x90) ∧
      decode 0xDF = .error (.undefinedOpcode 0xDF) ∧ decode 0xE0 = .ok (.out 0) := by decide

/-- BusIsWiredOr, MemoryOnlyThroughMar: memory read at the last address of the array. -/
theorem witness_BusIsWiredOr :
    let s := atWord { ro := true } 2 { fresh with mar := 15, mem := [(15, 9)] }
    s.ctrl.ro = true ∧ s.mar.toNat < narrow.cap ∧ s.mem.wf = true ∧
      resolve narrow s = .ok { bus := 9, newPend := { z := true, c := false } } := by decide

/-- InstructionOutDrivesOperandBits. -/
theorem witness_InstructionOutDrivesOperandBits : (atWord { io := true } 2 fresh).ctrl = { io := true } := rfl

/-- AdderWrapsModulo256, in both modes. -/
theorem witness_AdderWrapsModulo256 :
    (atWord { eo := true, su := true } 2 { fresh with a := 0, b := 255 }).ctrl = { eo := true, su := true } ∧
      (atWord { eo := true } 2 { fresh with a := 255, b := 255 }).ctrl = { eo := true, su := false } := ⟨rfl, rfl⟩

/-- PendingFlagsEveryCycle, FlagCommitTakesOldPending, OutputReturnedExactlyWithOi, LatchesTakeTheBus,
MemoryChangesOnlyByStoreOrLoad, AdvanceChoosesNextWord, ProgramCounterAfterCycle, LatchedFlagsReadOnlyByJumps,
OutputLatchIsWriteOnly, CycleKeepsControlInv, CycleKeepsMemoryInv: the first cycle after construction completes. -/
theorem witness_cycle_completes :
    nextIs (cycle narrow fresh) (fun _ => true) = true ∧ fresh.ctrl.hlt = false ∧ narrow.WellFormed ∧
      narrow.cap ≤ 256 ∧ fresh.ctrl.j = false ∧ fresh.ctrl.ce = false ∧ fresh.ctrl.jz = false ∧
      fresh.ctrl.jc = false ∧ fresh.ctrl.ri = false :=
  ⟨by decide, rfl, narrow_wellFormed, by decide, rfl, rfl, rfl, rfl, rfl⟩

/-- OutputLatchIsWriteOnly: a cycle that faults. -/
theorem witness_OutputLatchIsWriteOnly_fault :
    faultIs (cycle narrow (atWord { ro := true } 2 { fresh with mar := 16 })) (.memoryAddressOutOfRange 16) = true := by
  decide

/-- AdvanceChoosesNextWord: microsteps 4 and 5 without `RST`, at the two sides of the bound. -/
theorem witness_AdvanceChoosesNextWord :
    nextIs (cycle narrow (atWord {} 4 fresh)) (fun p => p.1.mstep == 5 && !p.1.boundReset) = true ∧
      nextIs (cycle narrow (atWord {} 5 fresh)) (fun p => p.1.mstep == 0 && p.1.boundReset) = true := by decide

/-- AddressOutOfRangeFaults: a write at the first address outside the array, with a decode failure behind it, and a read
in a word that also has `MI`. -/
theorem witness_AddressOutOfRangeFaults :
    let s := atWord { ri := true } 2 { fresh with mar := 16, ir := 0x90 }
    let t := atWord { mi := true, ro := true } 2 { fresh with mar := 16 }
    s.fault = none ∧ s.ctrl.hlt = false ∧ ¬ (s.ctrl.mi = true ∧ s.ctrl.ri = true) ∧ s.ctrl.ri = true ∧
      narrow.cap ≤ s.mar.toNat ∧ faultIs (cycle narrow s) (.memoryAddressOutOfRange 16) = true ∧
      t.fault = none ∧ t.ctrl.hlt = false ∧ ¬ (t.ctrl.mi = true ∧ t.ctrl.ri = true) ∧ t.ctrl.ro = true ∧
      narrow.cap ≤ t.mar.toNat := by decide

/-- UndecodableIrFaults: an undecodable byte written by a word that is no fetch word, one that stood in `IR`, a decodable
one, all with `MAR` at the last address, and a decoder that fails on 0. -/
theorem witness_UndecodableIrFaults :
    let s := atWord { ao := true, ii := true, ri := true } 2 { fresh with a := 0x90, mar := 15 }
    let t := atWord { ro := true } 2 { fresh with ir := 0x90, mar := 15 }
    s.fault = none ∧ s.ctrl.hlt = false ∧ ¬ (s.ctrl.mi = true ∧ s.ctrl.ri = true) ∧ s.mar.toNat < narrow.cap ∧
      faultIs (cycle narrow s) (.decodeError 0x90) = true ∧ faultIs (cycle narrow t) (.decodeError 0x90) = true ∧
      t.fault = none ∧ t.ctrl.hlt = false ∧ ¬ (t.ctrl.mi = true ∧ t.ctrl.ri = true) ∧ t.mar.toNat < narrow.cap ∧
      nextIs (cycle narrow { s with a := 0x5F }) (fun p => p.1.ir == 0x5F) = true ∧
      decodeByOpcode (fun _ => (none : Option Bool)) 0 = .error (.undefinedOpcode 0) := by decide

/-- HaltedMachineNeverChanges, HaltedIsForever. -/
theorem witness_HaltedMachineNeverChanges :
    let s := atWord { hlt := true } 2 fresh
    s.fault = none ∧ s.ctrl.hlt = true ∧ isHalted s = true ∧ nextIs (cycles narrow 2 s) (fun t => t == s) = true := by
  decide

/-- FaultedMachineTakesNoCycle. -/
theorem witness_FaultedMachineTakesNoCycle :
    (fresh.recordFault (.decodeError 0x90)).fault = some (.decodeError 0x90) := rfl

/-- UniversalFetch, StepRunsDecodedInstruction, CycleCounts: a machine between two instructions at the last address. -/
theorem witness_StepRunsDecodedInstruction :
    let s := atByte 15 0x00 fresh
    s.fault = none ∧ s.mstep = 0 ∧ s.ctrl = fetchAddress ∧ s.pc.toNat < narrow.cap ∧ s.pc.toNat = 15 ∧
      narrow.decode s.ir = .ok (.nop 0) ∧ decode (s.mem.read s.pc.toNat) = .ok (.nop 0) ∧
      s.mem.read s.pc.toNat = encode (.nop 0) ∧ 2 ≤ narrow.bound := by decide

/-- MissingEntryIsEmptyWord. -/
theorem witness_MissingEntryIsEmptyWord :
    let s := atWord {} 5 fresh
    s.fault = none ∧ s.ctrl = {} ∧ narrow.decode s.ir = .ok (.nop 0) ∧ (executeWords (.nop 0)).length + 2 ≤ 3 := by decide

/-- The results of all eleven instructions: the hypothesis, and each completes on the constructed machine. -/
theorem witness_exec_results :
    fresh.fault = none ∧
      [Instr.nop 9, .lda 14, .add 15, .sub 15, .sta 13, .ldi 15, .jmp 3, .jc 0, .jz 10, .out 7, .hlt 15].all
        (fun i => nextIs (exec i fresh) (fun t => t.ir == encode i)) = true := by decide

/-- The three frames: each kind completes. -/
theorem witness_frames :
    nextIs (exec (.ldi 15) fresh) (fun t => t.mem == fresh.mem) = true ∧
      nextIs (exec (.lda 14) fresh) (fun t => t.b == fresh.b) = true ∧
      nextIs (exec (.sta 13) { fresh with a := 1 }) (fun t => t.mem == [(13, 1)]) = true ∧
      (operandOut narrow (encode (.sta 13))).toNat = 13 := by decide

/-- StepOfUndefinedOpcodeFaults: the two ends of the range. -/
theorem witness_StepOfUndefinedOpcodeFaults :
    let s := atByte 0 0x90 fresh
    let t := atByte 15 0xDF fresh
    s.fault = none ∧ s.mstep = 0 ∧ s.ctrl = fetchAddress ∧ s.pc.toNat < narrow.cap ∧
      narrow.decode s.ir = .ok (.nop 0) ∧ (s.mem.read s.pc.toNat).toNat = 0x90 ∧ t.pc.toNat < narrow.cap ∧
      (t.mem.read t.pc.toNat).toNat = 0xDF := by decide

/-- StoreIsSeenByNextFetch: LDI 5 stored where the next fetch reads. -/
theorem witness_StoreIsSeenByNextFetch :
    let s := { fresh with a := 0x55, pc := 2 }
    s.fault = none ∧ s.mem.wf = true ∧ s.pc = (2 : Nibble).setWidth 8 ∧ decode s.a = .ok (.ldi 5) ∧
      nextIs (exec (.sta 2) s) (fun _ => true) = true := by decide

/-- CycleKeepsControlInv, WellFormedVariantNeverRefuses: the control invariant after construction. -/
theorem witness_ControlInv : ControlInv narrow State.reset where
  mstep_le := by decide
  pc_lt := by decide
  ctrl_fetch _ := rfl
  ctrl_table := ⟨.nop 0, rfl, by intro h; cases h⟩

/-- CycleKeepsMemoryInv: a memory with a byte at the last address. -/
theorem witness_MemoryInv : MemoryInv narrow { fresh with mem := [(15, 1)] } where
  canonical := by decide
  in_range := by decide

/-- StepKeepsNarrowInv, StepFaultsOnlyOnUndefinedOpcode: a machine inside an ADD, at microstep 3, meets the invariant and
its step completes. -/
theorem witness_NarrowInv :
    NarrowInv (atWord { ro := true, bi := true } 3 { fresh with ir := 0x2F, mar := 15, pc := 1, fresh := false }) ∧
      nextIs (step (atWord { ro := true, bi := true } 3 { fresh with ir := 0x2F, mar := 15, pc := 1, fresh := false }))
        (fun t => t.mstep == 0) = true := by
  refine ⟨⟨⟨by decide, by decide, nofun, ⟨.add 15, rfl, fun _ => rfl⟩⟩, ⟨rfl, rfl⟩, by decide, ?_, rfl, rfl⟩,
    by decide⟩
  intro i hi
  have hd : decode 0x2F = .ok (.add 15) := by decide
  have hi' : decode 0x2F = .ok i := hi
  rw [hd] at hi'
  cases hi'
  decide

end Sys2Proof.Tests
end

section
/-!
PROOFS. The state of spec/10_state.md: what a cycle does with the latched flags (R28), the output latch (R25) and the
halted predicate (R32).

That nothing reads a field is shown by following the cycle of the machine with that field changed: every phase is one
record update, so a change made before the cycle can be made after it instead (`cycle_mapNext`).
-/
namespace Sys2Proof.Machine

variable {ι : Type} {V : Variant ι} {s s' t : State} {o : Option Byte}

/-! ### The phases as single record updates -/

/-- The memory the write phase leaves: `RI` stores the bus at the `MAR` of this cycle, which `MI` may have just written
(R153). -/
def memoryIn (V : Variant ι) (bus : Byte) (s : State) : Except Fault Memory :=
  if s.ctrl.ri then memWrite V s.mem (if s.ctrl.mi then bus else s.mar) bus else .ok s.mem

/-- The five register latches of the write phase, together (R153). -/
def State.latched (s : State) (bus : Byte) : State :=
  { s with
    mar := if s.ctrl.mi then bus else s.mar
    out := if s.ctrl.oi then bus else s.out
    a := if s.ctrl.ai then bus else s.a
    b := if s.ctrl.bi then bus else s.b
    ir := if s.ctrl.ii then bus else s.ir }

theorem State.latch_eq (s : State) (e : Bool) (r : Reg) (v : Byte) :
    s.latch e r v =
      { s with
        pc := if e = true ∧ r = .pc then v else s.pc
        a := if e = true ∧ r = .a then v else s.a
        b := if e = true ∧ r = .b then v else s.b
        out := if e = true ∧ r = .out then v else s.out
        mar := if e = true ∧ r = .mar then v else s.mar
        ir := if e = true ∧ r = .ir then v else s.ir } := by
  cases e
  · simp [State.latch]
  · cases r <;> rfl

theorem writePhase_eq (V : Variant ι) (bus : Byte) (s : State) :
    writePhase V bus s = (memoryIn V bus s).map fun m => { s.latched bus with mem := m } := by
  unfold writePhase memoryIn
  simp only [State.latch_eq, State.latched, reduceCtorEq, and_false, and_true, if_false]
  split
  · cases memWrite V s.mem (if s.ctrl.mi then bus else s.mar) bus <;> rfl
  · rfl

theorem commitFlags_eq (s : State) :
    commitFlags s = { s with flags := if s.ctrl.fi then s.pending else s.flags } := by
  unfold commitFlags
  split <;> rfl

theorem jumpPhase_eq (V : Variant ι) (bus : Byte) (s : State) :
    jumpPhase V bus s = { s with pc := if jumpTaken s then jumpTarget V bus else s.pc } := by
  unfold jumpPhase
  split <;> rfl

theorem incrementPhase_eq (V : Variant ι) (s : State) :
    incrementPhase V s = { s with pc := if s.ctrl.ce then nextPc V s.pc else s.pc } := by
  unfold incrementPhase
  split <;> rfl

/-- The program counter a cycle of word `w` leaves: the jump on the committed flags `fl`, then the increment (R157,
R158). -/
def pcAfter (V : Variant ι) (w : CtrlWord) (fl : Flags) (bus pc : Byte) : Byte :=
  let jumped := if w.j || (w.jz && fl.z) || (w.jc && fl.c) then jumpTarget V bus else pc
  if w.ce then nextPc V jumped else jumped

theorem middlePhases_eq (V : Variant ι) (r : Resolved) (s : State) :
    middlePhases V r s =
      { s with
        pc := pcAfter V s.ctrl (if s.ctrl.fi then s.pending else s.flags) r.bus s.pc
        flags := if s.ctrl.fi then s.pending else s.flags
        pending := r.newPend } := by
  rw [middlePhases, incrementPhase_eq, jumpPhase_eq, commitFlags_eq]
  rfl

/-- Without `JZ` and `JC` the program counter does not depend on the flags. -/
theorem pcAfter_of_no_condition {w : CtrlWord} (hz : w.jz = false) (hc : w.jc = false) (fl fl' : Flags)
    (bus pc : Byte) : pcAfter V w fl bus pc = pcAfter V w fl' bus pc := by
  simp [pcAfter, hz, hc]

/-! ### What a running cycle leaves in the latched flags, `OUT` and `PC` -/

theorem cycle_next_running (h : cycle V s = .next (t, o)) (hh : s.ctrl.hlt = false) :
    ∃ r, resolve V s = .ok r ∧ o = producedOutput s.ctrl r.bus ∧ t.out = (if s.ctrl.oi then r.bus else s.out) ∧
      t.flags = (if s.ctrl.fi then s.pending else s.flags) ∧ t.pc = pcAfter V s.ctrl t.flags r.bus s.pc := by
  obtain ⟨-, ⟨hh', -, -⟩ | ⟨-, -, r, u, i, hr, hu, -, ho, ht⟩⟩ := cycle_next h
  · simp [hh] at hh'
  · obtain ⟨hpc, -, hout, -, -, -, -, -, hflags, hpending, hctrl, -⟩ := writePhase_ok hu
    refine ⟨r, hr, ho, ?_⟩
    simp [ht, middlePhases_eq, hpc, hout, hflags, hpending, hctrl]

/-! ### A cycle of a machine with one field changed -/

/-- A change of the state carried through what a cycle answers: a fault or a refusal stands. -/
def mapNext (g : State → State) :
    Host.Outcome (State × Option Byte) Fault Refusal → Host.Outcome (State × Option Byte) Fault Refusal
  | .next (t, o) => .next (g t, o)
  | .fault f => .fault f
  | .refused e => .refused e

/-- A change of the final state that leaves `IR` alone and does not meddle with the advance goes through the decode. -/
theorem finalPhases_mapNext {g : State → State} (o : Option Byte) (t : State) (hir : (g t).ir = t.ir)
    (hadvance : ∀ i, returnPhase o (advancePhase V i (g t)) = g (returnPhase o (advancePhase V i t))) :
    finalPhases V o (g t) = mapNext g (finalPhases V o t) := by
  simp only [finalPhases, hir]
  cases V.decode t.ir with
  | error e => rfl
  | ok i => simp only [hadvance, mapNext]

/-- If two running machines have one control word and one bus, and the change between them goes through the write, the
middle and the final phases, then their cycles answer the same up to that change. -/
theorem cycle_mapNext {g g' : State → State} (hh : s.ctrl.hlt = false) (hfault : s'.fault = s.fault)
    (hctrl : s'.ctrl = s.ctrl) (hresolve : resolve V s' = resolve V s)
    (hwrite : ∀ bus, writePhase V bus s' = (writePhase V bus s).map g)
    (hmiddle : ∀ r u, writePhase V r.bus s = .ok u → middlePhases V r (g u) = g' (middlePhases V r u))
    (hfinal : ∀ o u, finalPhases V o (g' u) = mapNext g' (finalPhases V o u)) :
    cycle V s' = mapNext g' (cycle V s) := by
  unfold cycle State.halted runningCycle
  rw [hfault, hctrl, hresolve, hh]
  cases s.fault with
  | some f => rfl
  | none =>
    cases s.ctrl.mi && s.ctrl.ri with
    | true => rfl
    | false =>
      cases resolve V s with
      | error f => rfl
      | ok r =>
        simp only [hwrite]
        cases hu : writePhase V r.bus s with
        | error f => rfl
        | ok u => simp [Except.map, hmiddle r u hu, hfinal]

/-! ### The output latch (R25) -/

/-- The machine with `v` in `OUT`, unless word `w` has just written it. -/
def State.withOut (w : CtrlWord) (v : Byte) (t : State) : State := { t with out := if w.oi then t.out else v }

theorem writePhase_withOut (V : Variant ι) (bus v : Byte) (s : State) :
    writePhase V bus { s with out := v } = (writePhase V bus s).map (State.withOut s.ctrl v) := by
  rw [writePhase_eq, writePhase_eq]
  have hmem : memoryIn V bus { s with out := v } = memoryIn V bus s := rfl
  rw [hmem]
  cases memoryIn V bus s with
  | error f => rfl
  | ok m => cases hoi : s.ctrl.oi <;> simp [Except.map, State.latched, State.withOut, hoi]

/-- A running cycle never reads `OUT`: with another value in it, it does the same in everything else. -/
theorem cycle_withOut (V : Variant ι) (v : Byte) (hh : s.ctrl.hlt = false) :
    cycle V { s with out := v } = mapNext (State.withOut s.ctrl v) (cycle V s) :=
  cycle_mapNext hh rfl rfl rfl (fun bus => writePhase_withOut V bus v s)
    (fun r u _ => by simp only [middlePhases_eq, State.withOut])
    (fun o u => finalPhases_mapNext o u rfl fun _ => rfl)

/-- A halted machine takes no cycle that could fault: the fault is an earlier one (R151, R162). -/
theorem fault_of_halted_cycle {f : Fault} (h : cycle V s = .fault f) (hh : s.ctrl.hlt = true) : s.fault = some f := by
  cases hf : s.fault with
  | none => simp [cycle_of_halted V hf hh] at h
  | some g => simpa [cycle_of_fault V hf] using h

/-- A cycle that faults does so with any value in `OUT`. -/
theorem cycle_fault_withOut {f : Fault} (v : Byte) (h : cycle V s = .fault f) :
    cycle V { s with out := v } = .fault f := by
  cases hh : s.ctrl.hlt with
  | true =>
    have hf : s.fault = some f := fault_of_halted_cycle h hh
    exact cycle_of_fault V hf
  | false => rw [cycle_withOut V v hh, h, mapNext]

/-- Settles O20: the cycle is followed with another value in `OUT`. -/
theorem outputLatchIsWriteOnly : Obligations.OutputLatchIsWriteOnly := by
  intro ι V s v
  refine ⟨fun t o h hh => ?_, fun f => cycle_fault_withOut v⟩
  obtain ⟨r, hr, ho, hout, -, -⟩ := cycle_next_running h hh
  refine ⟨?_, ⟨r, hr, fun hoi => ?_⟩, fun hoi => ?_⟩
  · rw [cycle_withOut V v hh, h]
    rfl
  · simp [hout, ho, producedOutput, hoi]
  · simp [hout, hoi]

/-! ### The latched flags (R28) -/

/-- The machine with `fl` in the latched flags. -/
def State.withFlags (fl : Flags) (t : State) : State := { t with flags := fl }

theorem writePhase_withFlags (V : Variant ι) (bus : Byte) (fl : Flags) (s : State) :
    writePhase V bus { s with flags := fl } = (writePhase V bus s).map (State.withFlags fl) := by
  rw [writePhase_eq, writePhase_eq]
  have hmem : memoryIn V bus { s with flags := fl } = memoryIn V bus s := rfl
  rw [hmem]
  cases memoryIn V bus s <;> rfl

/-- Without `JZ` and `JC` a running cycle never reads the latched flags: with others in them, it does the same in
everything else. -/
theorem cycle_withFlags (V : Variant ι) (fl : Flags) (hh : s.ctrl.hlt = false) (hz : s.ctrl.jz = false)
    (hc : s.ctrl.jc = false) :
    cycle V { s with flags := fl } =
      mapNext (State.withFlags (if s.ctrl.fi then s.pending else fl)) (cycle V s) := by
  refine cycle_mapNext hh rfl rfl rfl (fun bus => writePhase_withFlags V bus fl s) (fun r u hu => ?_)
    (fun o u => finalPhases_mapNext o u rfl fun _ => rfl)
  obtain ⟨-, -, -, -, -, -, -, -, -, hpending, hctrl, -⟩ := writePhase_ok hu
  simp only [middlePhases_eq, State.withFlags, hpending, hctrl]
  rw [pcAfter_of_no_condition hz hc]

/-- Settles O18: the program counter shows what the jumps read, and the cycle is followed with other latched flags. -/
theorem latchedFlagsReadOnlyByJumps : Obligations.LatchedFlagsReadOnlyByJumps := by
  intro ι V s t o fl h hh
  obtain ⟨r, hr, -, -, hflags, hpc⟩ := cycle_next_running h hh
  refine ⟨hflags, rfl, fun hj hce => ⟨r, hr, ?_⟩, fun hz hc => ?_⟩
  · simp [hpc, pcAfter, hj, hce]
  · rw [cycle_withFlags V fl hh hz hc, h]
    rfl

/-! ### The halted predicate (R32) -/

/-- No number of cycles changes a halted machine; one that also has a fault takes none. -/
theorem cycles_next_of_halted (n : Nat) (hh : s.ctrl.hlt = true) (h : cycles V n s = .next t) : t = s := by
  induction n with
  | zero => simpa using h.symm
  | succ n ih =>
    rw [cycles_succ, andThen_eq_next] at h
    obtain ⟨u, htick, hrest⟩ := h
    obtain ⟨o, hcycle⟩ := tick_next.mp htick
    obtain ⟨-, ⟨-, rfl, -⟩ | ⟨hrun, -⟩⟩ := cycle_next hcycle
    · exact ih hrest
    · simp [hh] at hrun

/-- Settles O28: a halted machine never changes. -/
theorem haltedIsForever : Obligations.HaltedIsForever := by
  intro ι V s
  refine ⟨rfl, fun n t hh h => ?_⟩
  rw [cycles_next_of_halted n hh h]
  exact hh

end Sys2Proof.Machine
end

section
/-!
PROOFS. The memory of spec/20_memory.md: every access goes through `MAR` (R51).
-/
namespace Sys2Proof.Machine

variable {ι : Type} {V : Variant ι} {s t : State} {o : Option Byte}

/-- A word of memory-out alone puts the byte at `MAR` on the bus: every other driver's share of the wired OR is 0. -/
theorem resolve_bus_of_memoryOut_alone {r : Resolved} (h : resolve V s = .ok r) (hctrl : s.ctrl = { ro := true }) :
    r.bus = s.mem.read s.mar.toNat := by
  obtain ⟨-, -, hbus⟩ := resolve_ok h
  simpa [hctrl] using hbus

/-- The resolver reads no byte of memory but the one at `MAR`. -/
theorem resolve_congr_mem (V : Variant ι) {m : Memory} (h : m.read s.mar.toNat = s.mem.read s.mar.toNat) :
    resolve V { s with mem := m } = resolve V s := by
  have hout : memoryOut V { s with mem := m } = memoryOut V s := by simp only [memoryOut, memRead, h]
  simp only [resolve, hout]

/-- The memory a running cycle leaves: memory-in has written the bus at the `MAR` the cycle began with, since no word
of `RI` that is run also has `MI` (D22). -/
theorem cycle_next_mem (h : cycle V s = .next (t, o)) (hh : s.ctrl.hlt = false) :
    ∃ r, resolve V s = .ok r ∧ t.mem = if s.ctrl.ri then s.mem.write s.mar.toNat r.bus else s.mem := by
  obtain ⟨-, ⟨hhlt, -, -⟩ | ⟨-, hmr, r, u, i, hr, hu, -, -, ht⟩⟩ := cycle_next h
  · simp [hh] at hhlt
  · obtain ⟨-, hmar, -, -, -, -, hmem, -⟩ := writePhase_ok hu
    have htmem : t.mem = u.mem := by simp [ht]
    refine ⟨r, hr, ?_⟩
    cases hri : s.ctrl.ri with
    | false => simp [htmem, hmem, hri]
    | true =>
      have hmi : s.ctrl.mi = false := by simpa [hri] using hmr
      simp [htmem, hmem, hri, hmar, hmi]

/-- Settles O22: the resolver reads memory at `MAR` only, and a running cycle leaves it with the bus written there or
as it was. -/
theorem memoryOnlyThroughMar : Obligations.MemoryOnlyThroughMar := by
  intro ι V s hwf
  refine ⟨fun hctrl hmar => ?_, fun m hm => resolve_congr_mem V hm, fun t o h hh => ?_⟩
  · obtain ⟨r, hr⟩ := resolve_of_inRange V s fun _ => hmar
    exact ⟨r, hr, resolve_bus_of_memoryOut_alone hr hctrl⟩
  · obtain ⟨r, hr, hmem⟩ := cycle_next_mem h hh
    refine ⟨r, hr, fun x => ?_⟩
    cases hri : s.ctrl.ri with
    | false => simp [hmem, hri]
    | true => simp [hmem, hri, Memory.read_write s.mem s.mar.toNat x r.bus hwf, eq_comm]

end Sys2Proof.Machine
end

section
/-!
PROOFS. The bus and the adder of spec/40_bus_resolver_alu.md: the wired OR bit by bit (R101, R108), the words with one
driver (R102, R104), and the adder's value and Zero output as numbers modulo 256 (R104, R106).
-/
namespace Sys2Proof.Machine

variable {ι : Type} {s : State}

/-! ### The wired OR -/

/-- One bit of a driver's share of the wired OR: a driver that is not enabled contributes 0 (R101). -/
@[simp] theorem getLsbD_driven (e : Bool) (v : Byte) (n : Nat) : (driven e v).getLsbD n = (e && v.getLsbD n) := by
  cases e
  · exact BitVec.getLsbD_zero
  · rfl

/-- Settles O11: the bus is an OR of drivers' shares, and each bit of a share is the enable and the source's bit. -/
theorem busIsWiredOr : Obligations.BusIsWiredOr := by
  intro ι V s hrange
  obtain ⟨r, hr⟩ := resolve_of_inRange V s hrange
  obtain ⟨-, -, hbus⟩ := resolve_ok hr
  refine ⟨r, hr, fun n => ?_⟩
  simp only [hbus, BitVec.getLsbD_or, getLsbD_driven, operandOut, BitVec.getLsbD_and, adderValue]

/-- A word that reads no memory is always answered, with the other drivers' wired OR on the bus. -/
theorem resolve_of_no_memoryOut (V : Variant ι) (h : s.ctrl.ro = false) :
    ∃ r, resolve V s = .ok r ∧
      r.bus = driven s.ctrl.co s.pc ||| driven s.ctrl.ao s.a ||| driven s.ctrl.bo s.b |||
        driven s.ctrl.io (operandOut V s.ir) ||| driven s.ctrl.eo (adderValue s.a s.b s.ctrl.su) := by
  obtain ⟨r, hr⟩ := resolve_of_inRange V s fun hro => by simp [h] at hro
  obtain ⟨-, -, hbus⟩ := resolve_ok hr
  exact ⟨r, hr, by simpa [h] using hbus⟩

/-! ### Instruction-out (R102) -/

/-- A word of instruction-out alone puts the operand bits of `IR` on the bus. -/
theorem resolve_of_instructionOut_alone (V : Variant ι) (hctrl : s.ctrl = { io := true }) :
    ∃ r, resolve V s = .ok r ∧ r.bus = operandOut V s.ir := by
  obtain ⟨r, hr, hbus⟩ := resolve_of_no_memoryOut V (s := s) (by rw [hctrl])
  exact ⟨r, hr, by simpa [hctrl] using hbus⟩

/-- In `Narrow` the operand bits are the low nibble. -/
theorem operandOut_narrow_toNat (ir : Byte) : (operandOut narrow ir).toNat = ir.toNat % 16 := by
  rw [operandOut, narrow_opMask, BitVec.toNat_and]
  exact Nat.and_two_pow_sub_one_eq_mod ir.toNat 4

/-- Settles O12: the share of instruction-out is the bus, and in `Narrow` the mask keeps the low nibble. -/
theorem instructionOutDrivesOperandBits : Obligations.InstructionOutDrivesOperandBits := by
  refine ⟨fun ι V s => resolve_of_instructionOut_alone V, fun s hctrl => ?_⟩
  obtain ⟨r, hr, hbus⟩ := resolve_of_instructionOut_alone narrow hctrl
  exact ⟨r, hr, by rw [hbus, operandOut_narrow_toNat]⟩

/-! ### The adder (R104, R106) -/

/-- A word of adder-out alone, in either mode, puts the adder's value on the bus. -/
theorem resolve_of_adderOut_alone (V : Variant ι) {su : Bool} (hctrl : s.ctrl = { eo := true, su := su }) :
    ∃ r, resolve V s = .ok r ∧ r.bus = adderValue s.a s.b su := by
  obtain ⟨r, hr, hbus⟩ := resolve_of_no_memoryOut V (s := s) (by rw [hctrl])
  exact ⟨r, hr, by simpa [hctrl] using hbus⟩

/-- The adder's value as a number: the integer sum or difference, modulo 256. -/
theorem adderValue_toNat (a b : Byte) (su : Bool) :
    ((adderValue a b su).toNat : Int) =
      (if su then (a.toNat : Int) - b.toNat else (a.toNat : Int) + b.toNat) % 256 := by
  cases su
  · simp [adderValue, BitVec.toNat_add]
  · have hb : b.toNat < 256 := b.isLt
    simp only [adderValue, if_true, BitVec.toNat_sub]
    omega

/-- Settles O13: the adder's value is the bus, and as a number it is the sum or the difference modulo 256. -/
theorem adderWrapsModulo256 : Obligations.AdderWrapsModulo256 := by
  intro ι V s su hctrl
  obtain ⟨r, hr, hbus⟩ := resolve_of_adderOut_alone V hctrl
  exact ⟨r, hr, by rw [hbus, adderValue_toNat]⟩

/-- The Zero output looks at the wrapped value: it is set exactly when 256 divides the sum or the difference. -/
theorem adderFlags_z_iff (a b : Byte) (su : Bool) :
    (adderFlags a b su).z = true ↔
      (if su then (a.toNat : Int) - b.toNat else (a.toNat : Int) + b.toNat) % 256 = 0 := by
  rw [← adderValue_toNat, Int.natCast_eq_zero, ← BitVec.toNat_zero, BitVec.toNat_inj]
  exact decide_eq_true_iff

/-- Settles O14: both modes are cases of `adderFlags_z_iff`; the sum of an add is not negative. -/
theorem zeroOutputOfWrappedValue : Obligations.ZeroOutputOfWrappedValue := by
  refine ⟨fun a b => ⟨?_, adderFlags_z_iff a b true⟩, by decide⟩
  calc (adderFlags a b false).z = true
    _ ↔ ((a.toNat : Int) + b.toNat) % 256 = 0 := adderFlags_z_iff a b false
    _ ↔ (a.toNat + b.toNat) % 256 = 0 := by omega

end Sys2Proof.Machine
end

section
/-!
PROOFS. The microsequencer of spec/41_microsequencer.md: the cycle of the empty word (R122) and the universal fetch
(R123, R164), each as one equation of whole states.
-/
namespace Sys2Proof.Machine

variable {ι : Type} {V : Variant ι} {s : State} {r : Resolved} {i j : ι}

/-! ### Cycles that do not write memory -/

theorem nextMstep_of_no_rst (h : s.ctrl.rst = false) :
    nextMstep V s = if s.mstep < V.bound then s.mstep + 1 else 0 := by
  simp only [nextMstep, h, Bool.false_eq_true, if_false]
  split_ifs <;> omega

theorem boundForced_of_no_rst (h : s.ctrl.rst = false) : boundForced V s = decide (V.bound ≤ s.mstep) := by
  simp [boundForced, h]

@[simp] theorem State.latched_mstep (s : State) (bus : Byte) : (s.latched bus).mstep = s.mstep := rfl

@[simp] theorem State.latched_boundReset (s : State) (bus : Byte) : (s.latched bus).boundReset = s.boundReset := rfl

@[simp] theorem State.latched_outputs (s : State) (bus : Byte) : (s.latched bus).outputs = s.outputs := rfl

theorem writePhase_of_no_memoryIn (V : Variant ι) (bus : Byte) (h : s.ctrl.ri = false) :
    writePhase V bus s = .ok (s.latched bus) := by
  simp [writePhase_eq, memoryIn, h, Except.map, State.latched]

/-- The cycle of a word without `HLT`, `RI`, `OI` and `RST`: the latches, the middle phases, and the next microstep
below the safety bound. -/
theorem cycle_of_inner_word {w : CtrlWord} (hf : s.fault = none) (hctrl : s.ctrl = w) (hh : w.hlt = false)
    (hri : w.ri = false) (hoi : w.oi = false) (hrst : w.rst = false) (hr : resolve V s = .ok r)
    (hi : V.decode (if w.ii then r.bus else s.ir) = .ok i) :
    cycle V s = .next
      ({ middlePhases V r (s.latched r.bus) with
          mstep := if s.mstep < V.bound then s.mstep + 1 else 0
          ctrl := V.microcode i (if s.mstep < V.bound then s.mstep + 1 else 0)
          boundReset := s.boundReset || decide (V.bound ≤ s.mstep)
          fresh := false }, none) := by
  subst hctrl
  have hmiddle : (middlePhases V r (s.latched r.bus)).ctrl.rst = false := by rw [middlePhases_ctrl]; exact hrst
  rw [cycle_of_phases hf hh (by simp [hri]) hr (writePhase_of_no_memoryIn V r.bus hri) hi]
  simp [returnPhase, advancePhase, producedOutput, hoi, nextMstep_of_no_rst hmiddle, boundForced_of_no_rst hmiddle]

/-! ### The empty word (R122) -/

theorem narrow_microcode_of_missing (i : Instr) (m : Nat) (h : (executeWords i).length + 2 ≤ m) :
    narrow.microcode i m = CtrlWord.empty := by
  obtain ⟨n, rfl⟩ : ∃ n, m = n + 2 := ⟨m - 2, by omega⟩
  rw [narrow_microcode, microcode_execute]
  exact List.getD_eq_default _ _ (by omega)

/-- Settles O31: the empty word enables no latch and no phase but the pending update and the advance. -/
theorem missingEntryIsEmptyWord : Obligations.MissingEntryIsEmptyWord := by
  refine ⟨narrow_microcode_of_missing, fun ι V s i hf hctrl hi => ?_⟩
  obtain ⟨r, hr, -⟩ := resolve_of_no_memoryOut V (s := s) (by rw [hctrl])
  obtain ⟨-, hpend, -⟩ := resolve_ok hr
  rw [cycle_of_inner_word hf hctrl rfl rfl rfl rfl hr hi]
  simp [middlePhases_eq, State.latched, pcAfter, hctrl, hpend]

/-! ### The universal fetch (R123, R164) -/

/-- Microstep 0 of the fetch: `MAR` takes the program counter; the decode is of the old `IR` (log 19). -/
theorem cycle_fetchAddress (hf : s.fault = none) (hctrl : s.ctrl = fetchAddress) (hm : s.mstep = 0)
    (hb : 0 < V.bound) (hj : V.decode s.ir = .ok j) :
    cycle V s = .next
      ({ s with
          mar := s.pc
          pending := adderFlags s.a s.b false
          mstep := 1
          ctrl := V.microcode j 1
          fresh := false }, none) := by
  obtain ⟨r, hr, hbus⟩ := resolve_of_no_memoryOut V (s := s) (by rw [hctrl]; rfl)
  obtain ⟨-, hpend, -⟩ := resolve_ok hr
  have hpc : r.bus = s.pc := by simpa [hctrl, fetchAddress] using hbus
  rw [cycle_of_inner_word hf hctrl rfl rfl rfl rfl hr hj]
  simp [middlePhases_eq, State.latched, pcAfter, hctrl, fetchAddress, hpend, hpc, hm, hb, hb.ne']

/-- Microstep 1 of the fetch: the byte at `MAR` goes to `IR` and is decoded, and the program counter advances. -/
theorem cycle_fetchOpcode (hf : s.fault = none) (hctrl : s.ctrl = fetchOpcode) (hm : s.mstep = 1)
    (hb : 1 < V.bound) (hmar : s.mar.toNat < V.cap) (hi : V.decode (s.mem.read s.mar.toNat) = .ok i) :
    cycle V s = .next
      ({ s with
          ir := s.mem.read s.mar.toNat
          pc := nextPc V s.pc
          pending := adderFlags s.a s.b false
          mstep := 2
          ctrl := V.microcode i 2
          fresh := false }, none) := by
  obtain ⟨r, hr⟩ := resolve_of_inRange V s fun _ => hmar
  obtain ⟨-, hpend, hbus⟩ := resolve_ok hr
  have hbyte : r.bus = s.mem.read s.mar.toNat := by simpa [hctrl, fetchOpcode] using hbus
  rw [cycle_of_inner_word hf hctrl rfl rfl rfl rfl hr (hbyte ▸ hi)]
  simp [middlePhases_eq, State.latched, pcAfter, hctrl, fetchOpcode, hpend, hbyte, hm, hb]

theorem cycles_one {t : State} {o : Option Byte} (h : cycle V s = .next (t, o)) : cycles V 1 s = .next t := by
  rw [cycles_succ, tick_next.mpr ⟨o, h⟩, andThen_next, cycles_zero]

/-- The two cycles of the fetch together: the byte at `PC` is in `IR`, and its word at microstep 2 is current. -/
theorem cycles_two_fetch (hw : V.WellFormed) (hf : s.fault = none) (hctrl : s.ctrl = fetchAddress) (hm : s.mstep = 0)
    (hb : 2 ≤ V.bound) (hpc : s.pc.toNat < V.cap) (hj : V.decode s.ir = .ok j)
    (hi : V.decode (s.mem.read s.pc.toNat) = .ok i) :
    cycles V 2 s = .next
      { s with
          mar := s.pc
          ir := s.mem.read s.pc.toNat
          pc := nextPc V s.pc
          pending := adderFlags s.a s.b false
          mstep := 2
          ctrl := V.microcode i 2
          fresh := false } := by
  have hfirst := cycle_fetchAddress hf hctrl hm (by omega) hj
  rw [cycles_succ, tick_next.mpr ⟨none, hfirst⟩, andThen_next]
  exact cycles_one (cycle_fetchOpcode hf (hw.fetch1 j) rfl hb hpc hi)

/-- Settles O30: the table gives the fetch words, and their two cycles are followed as whole states. -/
theorem universalFetch : Obligations.UniversalFetch := by
  refine ⟨narrow_wellFormed, fun ι V hw => ⟨fun i => ⟨hw.fetch0 i, hw.fetch1 i⟩, ?_⟩⟩
  intro s j i hb hf hm hctrl hpc hj hi
  have hfirst := cycles_one (cycle_fetchAddress hf hctrl hm (by omega) hj)
  have hboth := cycles_two_fetch hw hf hctrl hm hb hpc hj hi
  exact ⟨⟨_, hfirst, rfl, rfl, rfl, rfl, hw.fetch1 j⟩,
    ⟨_, hboth, rfl, rfl, rfl, rfl, rfl, rfl, rfl, rfl, rfl, rfl⟩⟩

end Sys2Proof.Machine
end

section
/-!
PROOFS. The machine cycle of spec/42_machine_core.md: the flag commit (R155) and the returned byte (R161), both read off
what a running cycle leaves (`cycle_next_running`).
-/
namespace Sys2Proof.Machine

/-- Settles O17: the commit's share of what a running cycle leaves. -/
theorem flagCommitTakesOldPending : Obligations.FlagCommitTakesOldPending := by
  intro ι V s t o h hh
  obtain ⟨-, -, -, -, hflags, -⟩ := cycle_next_running h hh
  exact hflags

/-- Settles O19: the byte a running cycle returns is `producedOutput` of its own word and bus. -/
theorem outputReturnedExactlyWithOi : Obligations.OutputReturnedExactlyWithOi := by
  intro ι V s t o h hh
  obtain ⟨r, hr, ho, -⟩ := cycle_next_running h hh
  exact ⟨r, hr, by rw [ho, producedOutput]⟩

end Sys2Proof.Machine
end

section
/-!
PROOFS. The encoding of spec/30_encoding.md: the reference decoder and the encoder are inverse to each other (R76, R83),
which bytes fail (R77), that the operand selects no microcode (R75), and the 20-bit layout of the control word (R82).

All of it goes through the two fields of the byte: an instruction is its opcode and its operand, a byte is its opcode
field and its operand field, and `decode` and `encode` match the one pair with the other.
-/
namespace Sys2Proof

open Sys2Proof.Machine

/-! ### Decoder and encoder -/

theorem decode_encode (i : Instr) : decode (encode i) = .ok i := by
  obtain ⟨hopcode, hoperand, -⟩ := Laws.EncodingFields.all i
  cases i <;> simp [decode, hopcode, hoperand, Instr.opcode, Instr.operand]

/-- Settles O5: both fields of the byte are read back. -/
theorem decodeOfEncode : Obligations.DecodeOfEncode := decode_encode

/-- A byte is its two fields, the opcode field first. -/
theorem append_fields (b : Byte) : opcodeField b ++ operandField b = b := by
  apply BitVec.eq_of_getLsbD_eq
  intro n hn
  rw [BitVec.getLsbD_append, opcodeField, operandField, BitVec.getLsbD_extractLsb', BitVec.getLsbD_extractLsb']
  by_cases h : n < 4
  · simp [h]
  · simp [h, show n - 4 < 4 by omega, show 4 + (n - 4) = n by omega]

/-- An instruction that is decoded has the fields of its byte. -/
theorem fields_of_decode {b : Byte} {i : Instr} (h : decode b = .ok i) :
    i.opcode = opcodeField b ∧ i.operand = operandField b := by
  unfold decode at h
  split at h <;> cases h
  all_goals
    rename_i hop
    exact ⟨BitVec.eq_of_toNat_eq hop.symm, rfl⟩

theorem encode_of_decode {b : Byte} {i : Instr} (h : decode b = .ok i) : encode i = b := by
  obtain ⟨hopcode, hoperand⟩ := fields_of_decode h
  rw [encode, hopcode, hoperand, append_fields]

/-- Settles O6: the decoded instruction has both fields of the byte. -/
theorem encodeOfDecode : Obligations.EncodeOfDecode := fun _ _ => encode_of_decode

/-! ### Undefined opcodes (R77) -/

/-- The opcodes outside the reference map: 0x9..0xD. -/
def UndefinedOpcode (op : Nibble) : Prop := 0x9 ≤ op.toNat ∧ op.toNat ≤ 0xD

theorem decode_of_undefinedOpcode {b : Byte} (h : UndefinedOpcode (opcodeField b)) :
    decode b = .error (.undefinedOpcode b) := by
  obtain ⟨hlo, hhi⟩ := h
  unfold decode
  split
  case h_12 => rfl
  all_goals omega

theorem decode_of_defined {b : Byte} (h : ¬ UndefinedOpcode (opcodeField b)) : ∃ i, decode b = .ok i := by
  unfold decode
  split
  case h_12 =>
    have := (opcodeField b).isLt
    unfold UndefinedOpcode at h
    grind
  all_goals exact ⟨_, rfl⟩

theorem decode_ok_iff (b : Byte) : (∃ i, decode b = .ok i) ↔ ¬ UndefinedOpcode (opcodeField b) :=
  ⟨fun ⟨i, hi⟩ hu => by simp [decode_of_undefinedOpcode hu] at hi, decode_of_defined⟩

theorem opcodeField_toNat (b : Byte) : (opcodeField b).toNat = b.toNat / 16 := by
  have := b.isLt
  rw [opcodeField, BitVec.extractLsb'_toNat, Nat.shiftRight_eq_div_pow]
  omega

theorem undefinedOpcode_iff (b : Byte) : UndefinedOpcode (opcodeField b) ↔ 0x90 ≤ b.toNat ∧ b.toNat ≤ 0xDF := by
  rw [UndefinedOpcode, opcodeField_toNat]
  omega

/-- Settles O7: the range of bytes is the range of opcodes. -/
theorem undefinedOpcodesFail : Obligations.UndefinedOpcodesFail := by
  intro b
  split
  case isTrue h => exact decode_of_undefinedOpcode ((undefinedOpcode_iff b).mpr h)
  case isFalse h => exact decode_of_defined (mt (undefinedOpcode_iff b).mp h)

/-- Settles O8: each byte is `encode` of its instruction. -/
theorem decodedWordsOfTheTable : Obligations.DecodedWordsOfTheTable :=
  ⟨decode_encode (.nop 0), decode_encode (.lda 14), decode_encode (.add 15), decode_encode (.sta 13),
    decode_encode (.jc 0), decode_encode (.out 7)⟩

/-! ### The operand selects no microcode (R75) -/

/-- The row of an opcode: that of its instruction with operand 0, no words for an undefined opcode. -/
def rowOfOpcode (op : Nibble) : List CtrlWord :=
  match decode (op ++ (0 : Nibble)) with
  | .ok i => executeWords i
  | .error _ => []

theorem executeWords_eq_rowOfOpcode (i : Instr) : executeWords i = rowOfOpcode i.opcode := by
  cases i <;> simp only [executeWords, Instr.opcode] <;> decide

/-- Settles O9: both decoders and the microcode row are functions of the opcode field. -/
theorem operandNeverSelectsMicrocode : Obligations.OperandNeverSelectsMicrocode := by
  intro b c h
  refine ⟨?_, fun i j hi hj m => ?_, fun ι opcodes table i => ?_⟩
  · rw [decode_ok_iff, decode_ok_iff, h]
  · have hopcode : i.opcode = j.opcode := by rw [(fields_of_decode hi).1, (fields_of_decode hj).1, h]
    simp only [narrow_microcode, microcode, executeWords_eq_rowOfOpcode, hopcode]
  · simp only [extendedNarrow_decode, decodeByOpcode_ok, h]

/-! ### The 20-bit control word (R82) -/

/-- Bit by bit, the 20-bit word is the control word in the row order of R80. -/
theorem toBits_getLsbD (w : CtrlWord) (g : Signal) : w.toBits.getLsbD g.bit = w.has g := by
  simp only [CtrlWord.toBits, BitVec.getLsbD_append, BitVec.getLsbD_ofBool]
  cases g <;> simp [Signal.bit, CtrlWord.has]

theorem ofPred_has (w : CtrlWord) : CtrlWord.ofPred w.has = w := rfl

/-- Settles O10: the 20-bit word holds every signal at its bit, so reading the bits gives the control word back. -/
theorem controlWordBits : Obligations.ControlWordBits := by
  intro w
  refine ⟨toBits_getLsbD w, ?_⟩
  simp only [CtrlWord.ofBits, toBits_getLsbD, ofPred_has]

end Sys2Proof
end

section
/-!
PROOFS. The host interface of spec/42_machine_core.md section 3: construction with its reset state (R37, R260), the
image load (R165), the fault record of the machine the caller holds (R33, R230), and `run` (R166, R168).
-/
namespace Sys2Proof.Machine

variable {ι : Type} {V : Variant ι} {s t : State} {o : Option Byte} {f : Fault}

/-! ### Construction -/

/-- Settles O1: every field of the reset state. -/
theorem resetState : Obligations.ResetState :=
  ⟨fun r => by cases r <;> rfl, fun _ => rfl, rfl, rfl, rfl, rfl, rfl, rfl, rfl, rfl, rfl, rfl⟩

theorem wordOk_iff (w : CtrlWord) : wordOk w = true ↔ (w.hlt = false → ¬ (w.mi = true ∧ w.ri = true)) := by
  simp [wordOk, imp_iff_not_or]

/-- Settles O2: the premises are the fields of `Variant.WellFormed`, and each missing one refutes it. -/
theorem constructRefusesIllFormedRecords : Obligations.ConstructRefusesIllFormedRecords := by
  intro ι V _
  refine ⟨fun hcap hfetch hwords => ?_, fun hcap => ?_, fun i hbad => ?_⟩
  · exact construct_of_wellFormed
      { cap_powerOfTwo := (isPowerOfTwo_iff V.cap).mpr hcap
        fetch0 := fun i => (hfetch i).1
        fetch1 := fun i => (hfetch i).2
        words := fun i m => (wordOk_iff _).mpr (hwords i m) }
  · exact construct_of_not_wellFormed fun hw => hcap ((isPowerOfTwo_iff V.cap).mp hw.cap_powerOfTwo)
  · apply construct_of_not_wellFormed
    intro hw
    obtain h0 | h1 | ⟨m, hh, hmi, hri⟩ := hbad
    · exact h0 (hw.fetch0 i)
    · exact h1 (hw.fetch1 i)
    · exact (wordOk_iff _).mp (hw.words i m) hh ⟨hmi, hri⟩

/-! ### The image load -/

/-- A read after the image load: the image's byte inside it, the old byte outside. -/
theorem read_loadBytes (vs : List Byte) (x y : Nat) (m : Memory) (h : m.wf = true) :
    (loadBytes x vs m).read y = if x ≤ y ∧ y < x + vs.length then vs.getD (y - x) 0 else m.read y := by
  induction vs generalizing x m with
  | nil => simp [loadBytes, show ¬ (x ≤ y ∧ y < x) by omega]
  | cons v vs ih =>
    rw [loadBytes, ih (x + 1) _ (Memory.write_wf m x v h), Memory.read_write m x y v h, List.length_cons]
    obtain hlt | rfl | hgt := Nat.lt_trichotomy x y
    · obtain ⟨d, rfl⟩ : ∃ d, y = x + 1 + d := ⟨y - (x + 1), by omega⟩
      have hne : x ≠ x + 1 + d := by omega
      have hin : x + 1 + d < x + 1 + vs.length ↔ x + 1 + d < x + (vs.length + 1) := by omega
      have hpos : x + 1 + d - x = d + 1 := by omega
      simp [hne, hin, hpos, hlt.le]
    · simp
    · simp [show ¬ x ≤ y by omega, show ¬ x + 1 ≤ y by omega, show x ≠ y by omega]

theorem setInput_of_fault (V : Variant ι) (bytes : List Byte) (hf : s.fault = some f) :
    setInput V bytes s = .fault f := by
  simp [setInput, hf, raiseFault]

theorem setInput_of_not_fresh (V : Variant ι) (bytes : List Byte) (hf : s.fault = none) (hfresh : s.fresh = false) :
    setInput V bytes s = .refused .inputAfterStart := by
  simp [setInput, hf, hfresh]

theorem setInput_of_fits {bytes : List Byte} (hf : s.fault = none) (hfresh : s.fresh = true)
    (hlen : bytes.length ≤ V.cap) :
    setInput V bytes s = .next { s with mem := loadBytes 0 bytes s.mem, fresh := false } := by
  simp [setInput, hf, hfresh, Variant.imageFits, hlen]

theorem setInput_too_long {bytes : List Byte} (hf : s.fault = none) (hfresh : s.fresh = true)
    (hlen : V.cap < bytes.length) : setInput V bytes s = .fault (.inputTooLong bytes.length) := by
  simp [setInput, hf, hfresh, Variant.imageFits, Nat.not_le.mpr hlen, raiseFault]

/-- Settles O3: the three guards of `setInput`; the image's bytes are read back by `read_loadBytes`. -/
theorem setInputLoadsFreshMachine : Obligations.SetInputLoadsFreshMachine := by
  intro ι V bytes s hf hwf
  refine ⟨fun hfresh hlen => ⟨_, setInput_of_fits hf hfresh hlen, loadBytes_wf bytes 0 s.mem hwf, fun x => ?_⟩,
    setInput_too_long hf, setInput_of_not_fresh V bytes hf⟩
  simp [read_loadBytes bytes 0 x s.mem hwf]

/-! ### The fault record -/

theorem setInputHeld_of_fault {bytes : List Byte} (h : setInput V bytes s = .fault f) :
    setInputHeld V bytes s = s.recordFault f := by
  rw [setInputHeld, h, heldAfter_fault]

/-- Settles O58: each faulting call leaves `recordFault` of its fault, which keeps an earlier record. -/
theorem everyFaultIsRecorded : Obligations.EveryFaultIsRecorded := by
  intro ι V bytes s
  refine ⟨fun hf hfresh hlen => ?_, fun f h => ?_, fun f hf => ?_⟩
  · have hheld := setInputHeld_of_fault (setInput_too_long hf hfresh hlen)
    have hrecord : (setInputHeld V bytes s).fault = some (.inputTooLong bytes.length) := by simp [hheld, hf]
    exact ⟨hrecord, by simp [hheld], cycle_of_fault V hrecord⟩
  · have hrecord : (cycleHeld V s).fault = some f := by
      rw [cycleHeld_of_fault h, recordFault_fault_of_cycle h]
    exact ⟨hrecord, cycle_of_fault V hrecord⟩
  · have hinput := setInput_of_fault V bytes hf
    refine ⟨?_, ?_, hinput⟩
    · rw [cycleHeld_of_fault (cycle_of_fault V hf), recordFault_fault_of_cycle (cycle_of_fault V hf)]
    · simp [setInputHeld_of_fault hinput, hf]

/-! ### The run -/

/-- How a run of fuel `n` ends after `k` cycles that lead to `t`, with the machine `final` handed back. -/
def EndsAt (V : Variant ι) (n k : Nat) (t final : State) : RunEnd → Prop
  | .halted => isHalted t = true ∧ final = t
  | .outOfFuel => k = n ∧ isHalted t = false ∧ final = t
  | .faulted f => k < n ∧ isHalted t = false ∧ cycle V t = .fault f ∧ final = t.recordFault f ∧ final.fault = some f
  | .refused e => k < n ∧ isHalted t = false ∧ cycle V t = .refused e ∧ final = t

theorem EndsAt.succ {n k : Nat} {final : State} {e : RunEnd} (h : EndsAt V n k t final e) :
    EndsAt V (n + 1) (k + 1) t final e := by
  cases e with
  | halted => exact h
  | outOfFuel => exact ⟨congrArg (· + 1) h.1, h.2⟩
  | faulted f => exact ⟨Nat.succ_lt_succ h.1, h.2⟩
  | refused r => exact ⟨Nat.succ_lt_succ h.1, h.2⟩

theorem cycles_succ_of_next (n : Nat) (h : cycle V s = .next (t, o)) : cycles V (n + 1) s = cycles V n t := by
  rw [cycles_succ, tick_next.mpr ⟨o, h⟩, andThen_next]

/-- A run is some number of cycles, none from a halted machine, and its outputs are what they returned. -/
theorem run_is_cycles (V : Variant ι) (n : Nat) (s : State) :
    ∃ k t, k ≤ n ∧ cycles V k s = .next t ∧ t.outputs = s.outputs ++ (run V n s).outs ∧
      (∀ j u, j < k → cycles V j s = .next u → isHalted u = false) ∧
      EndsAt V n k t (run V n s).final (run V n s).ended := by
  induction n generalizing s with
  | zero =>
    refine ⟨0, s, le_refl 0, rfl, ?_⟩
    cases hh : s.halted with
    | true => simp [EndsAt, isHalted, hh]
    | false => simp [run_zero hh, EndsAt, isHalted, hh]
  | succ n ih =>
    cases hh : s.halted with
    | true => exact ⟨0, s, by omega, rfl, by simp [EndsAt, isHalted, hh]⟩
    | false =>
      cases hc : cycle V s with
      | next p =>
        obtain ⟨u, o⟩ := p
        obtain ⟨k, t, hk, ht, hout, hrunning, hend⟩ := ih u
        rw [run_succ_next n hh hc]
        refine ⟨k + 1, t, by omega, by rw [cycles_succ_of_next k hc, ht], ?_, fun j v hj hv => ?_, hend.succ⟩
        · rw [hout, cycle_outputs hc, List.append_assoc]
        · cases j with
          | zero => cases hv; exact hh
          | succ j => exact hrunning j v (by omega) (by rwa [cycles_succ_of_next j hc] at hv)
      | fault f =>
        refine ⟨0, s, by omega, rfl, ?_⟩
        simpa [run_succ_fault n hh hc, EndsAt, isHalted, hh, hc] using recordFault_fault_of_cycle hc
      | refused e =>
        refine ⟨0, s, by omega, rfl, ?_⟩
        simp [run_succ_refused n hh hc, EndsAt, isHalted, hh, hc]

/-- A run that has ended is not changed by more fuel. -/
theorem run_add_of_ended (n m : Nat) (h : (run V n s).ended ≠ .outOfFuel) : run V (n + m) s = run V n s := by
  induction n generalizing s with
  | zero =>
    cases hh : s.halted with
    | true => simp [hh]
    | false => simp [run_zero hh] at h
  | succ n ih =>
    rw [Nat.add_right_comm]
    cases hh : s.halted with
    | true => simp [hh]
    | false =>
      cases hc : cycle V s with
      | next p =>
        obtain ⟨u, o⟩ := p
        rw [run_succ_next n hh hc] at h
        rw [run_succ_next _ hh hc, run_succ_next n hh hc, ih h]
      | fault f => rw [run_succ_fault _ hh hc, run_succ_fault n hh hc]
      | refused e => rw [run_succ_refused _ hh hc, run_succ_refused n hh hc]

/-- Settles O4: a completed cycle adds what it returns, and a run is such cycles. -/
theorem runCollectsOutputsInOrder : Obligations.RunCollectsOutputsInOrder := by
  intro ι V n s
  refine ⟨fun t o => cycle_outputs, ?_, run_of_halted V n, fun h m => run_add_of_ended n m h⟩
  obtain ⟨k, t, hk, ht, hout, hrunning, hend⟩ := run_is_cycles V n s
  refine ⟨k, t, hk, ht, hout, hrunning, ?_⟩
  cases he : (run V n s).ended <;> (rw [he] at hend; exact hend)

end Sys2Proof.Machine
end

section
/-!
PROOFS. The machine cycle of spec/42_machine_core.md as one equation of whole states: what a running cycle answers in
each of its cases, and the state it leaves. The statements about single phases are read off that state.
-/
namespace Sys2Proof.Machine

variable {ι : Type} {V : Variant ι} {s t : State} {r : Resolved} {i : ι} {o : Option Byte}

/-! ### The resolver's answer -/

/-- The bus value of a cycle whose memory access is in range: the wired OR of the drivers (R101). -/
def busValue (V : Variant ι) (s : State) : Byte :=
  driven s.ctrl.co s.pc ||| driven s.ctrl.ao s.a ||| driven s.ctrl.bo s.b ||| driven s.ctrl.io (operandOut V s.ir) |||
    driven s.ctrl.ro (s.mem.read s.mar.toNat) ||| driven s.ctrl.eo (adderValue s.a s.b s.ctrl.su)

/-- What the resolver answers when it answers. -/
def resolved (V : Variant ι) (s : State) : Resolved where
  bus := busValue V s
  newPend := adderFlags s.a s.b s.ctrl.su

theorem eq_resolved_of_resolve (h : resolve V s = .ok r) : r = resolved V s := by
  obtain ⟨-, hpend, hbus⟩ := resolve_ok h
  cases r
  exact congrArg₂ Resolved.mk hbus hpend

theorem resolve_eq_resolved (h : s.ctrl.ro = true → s.mar.toNat < V.cap) : resolve V s = .ok (resolved V s) := by
  obtain ⟨r, hr⟩ := resolve_of_inRange V s h
  rw [hr, eq_resolved_of_resolve hr]

theorem resolve_outOfRange (hro : s.ctrl.ro = true) (hmar : V.cap ≤ s.mar.toNat) :
    resolve V s = .error (.memoryAddressOutOfRange s.mar) := by
  simp [resolve, memoryOut, memRead, hro, Nat.not_lt.mpr hmar]

/-! ### The write phase's answer -/

/-- The cycle's memory access, if it makes one, is inside the array (R53). -/
def State.accessInRange (V : Variant ι) (s : State) : Prop :=
  s.ctrl.ro = true ∨ s.ctrl.ri = true → s.mar.toNat < V.cap

/-- The state after the write phase of a cycle whose access is in range and whose word does not have both `MI` and
`RI` (R153). -/
def written (V : Variant ι) (s : State) : State :=
  { s.latched (busValue V s) with
    mem := if s.ctrl.ri then s.mem.write s.mar.toNat (busValue V s) else s.mem }

theorem writePhase_eq_written (hmr : (s.ctrl.mi && s.ctrl.ri) = false) (hrange : s.accessInRange V) :
    writePhase V (busValue V s) s = .ok (written V s) := by
  cases hri : s.ctrl.ri with
  | false => simp [writePhase_of_no_memoryIn V _ hri, written, State.latched, hri]
  | true =>
    have hmi : s.ctrl.mi = false := by simpa [hri] using hmr
    simp [writePhase_eq, memoryIn, memWrite, written, hri, hmi, hrange (.inr hri), Except.map]

theorem writePhase_outOfRange (bus : Byte) (hmr : (s.ctrl.mi && s.ctrl.ri) = false) (hri : s.ctrl.ri = true)
    (hmar : V.cap ≤ s.mar.toNat) : writePhase V bus s = .error (.memoryAddressOutOfRange s.mar) := by
  have hmi : s.ctrl.mi = false := by simpa [hri] using hmr
  simp [writePhase_eq, memoryIn, memWrite, hri, hmi, Nat.not_lt.mpr hmar, Except.map]

/-! ### The answers of a running cycle -/

/-- The byte in `IR` after the write phase, which the decode phase decodes (R159). -/
def irAfter (V : Variant ι) (s : State) : Byte := if s.ctrl.ii then busValue V s else s.ir

/-- The latched flags after the commit (R155). -/
def flagsAfter (s : State) : Flags := if s.ctrl.fi then s.pending else s.flags

/-- The state a running cycle leaves when its memory access is in range and `IR` decodes to `i` after the write. -/
def afterCycle (V : Variant ι) (i : ι) (s : State) : State where
  pc := pcAfter V s.ctrl (flagsAfter s) (busValue V s) s.pc
  a := if s.ctrl.ai then busValue V s else s.a
  b := if s.ctrl.bi then busValue V s else s.b
  out := if s.ctrl.oi then busValue V s else s.out
  mar := if s.ctrl.mi then busValue V s else s.mar
  ir := irAfter V s
  flags := flagsAfter s
  pending := adderFlags s.a s.b s.ctrl.su
  ctrl := V.microcode i (nextMstep V s)
  mstep := nextMstep V s
  mem := if s.ctrl.ri then s.mem.write s.mar.toNat (busValue V s) else s.mem
  fault := s.fault
  boundReset := s.boundReset || boundForced V s
  outputs := s.outputs ++ (producedOutput s.ctrl (busValue V s)).toList
  fresh := false

section Running

variable (hf : s.fault = none) (hh : s.ctrl.hlt = false)

include hf hh

theorem cycle_eq_runningCycle : cycle V s = runningCycle V s := by
  simp [cycle, hf, State.halted, hh]

/-- A memory access outside the array faults, the read in the resolver and the write in the write phase, both before
the decode (R53, R235). -/
theorem cycle_outOfRange (hmr : (s.ctrl.mi && s.ctrl.ri) = false) (haccess : s.ctrl.ro = true ∨ s.ctrl.ri = true)
    (hmar : V.cap ≤ s.mar.toNat) : cycle V s = .fault (.memoryAddressOutOfRange s.mar) := by
  rw [cycle_eq_runningCycle hf hh, runningCycle, if_neg (by simp [hmr])]
  cases hro : s.ctrl.ro with
  | true => simp only [resolve_outOfRange hro hmar, raiseFault]
  | false =>
    have hri : s.ctrl.ri = true := by simpa [hro] using haccess
    rw [resolve_eq_resolved (by simp [hro])]
    simp only [writePhase_outOfRange _ hmr hri hmar, raiseFault]

/-- A cycle in range reaches its decode with the state the middle phases leave. -/
theorem cycle_inRange (hmr : (s.ctrl.mi && s.ctrl.ri) = false) (hrange : s.accessInRange V) :
    cycle V s = finalPhases V (producedOutput s.ctrl (busValue V s)) (middlePhases V (resolved V s) (written V s)) := by
  rw [cycle_eq_runningCycle hf hh, runningCycle, if_neg (by simp [hmr]),
    resolve_eq_resolved fun hro => hrange (.inl hro)]
  simp only [resolved, writePhase_eq_written hmr hrange]

theorem cycle_of_decode_ok (hmr : (s.ctrl.mi && s.ctrl.ri) = false) (hrange : s.accessInRange V)
    (hi : V.decode (irAfter V s) = .ok i) :
    cycle V s = .next (afterCycle V i s, producedOutput s.ctrl (busValue V s)) := by
  have hir : (middlePhases V (resolved V s) (written V s)).ir = irAfter V s := middlePhases_ir ..
  rw [cycle_inRange hf hh hmr hrange, finalPhases, hir, hi, middlePhases_eq]
  rfl

theorem cycle_of_decode_error {e : DecodeError} (hmr : (s.ctrl.mi && s.ctrl.ri) = false)
    (hrange : s.accessInRange V) (he : V.decode (irAfter V s) = .error e) :
    cycle V s = .fault (.decodeError (irAfter V s)) := by
  have hir : (middlePhases V (resolved V s) (written V s)).ir = irAfter V s := middlePhases_ir ..
  rw [cycle_inRange hf hh hmr hrange, finalPhases, hir, he]
  rfl

end Running

/-- A running cycle that completes leaves `afterCycle`. -/
theorem cycle_next_afterCycle (h : cycle V s = .next (t, o)) (hh : s.ctrl.hlt = false) :
    s.fault = none ∧ (s.ctrl.mi && s.ctrl.ri) = false ∧ s.accessInRange V ∧
      o = producedOutput s.ctrl (busValue V s) ∧ ∃ i, V.decode (irAfter V s) = .ok i ∧ t = afterCycle V i s := by
  obtain ⟨hf, ⟨hh', -⟩ | ⟨-, hmr, -⟩⟩ := cycle_next h
  · simp [hh] at hh'
  have hrange : s.accessInRange V := by
    intro haccess
    by_contra hmar
    simp [cycle_outOfRange hf hh hmr haccess (Nat.not_lt.mp hmar)] at h
  cases hi : V.decode (irAfter V s) with
  | error e => simp [cycle_of_decode_error hf hh hmr hrange hi] at h
  | ok i =>
    rw [cycle_of_decode_ok hf hh hmr hrange hi] at h
    cases h
    exact ⟨hf, hmr, hrange, rfl, i, rfl, rfl⟩

/-- What holds of a state and of what its running cycle leaves holds after its cycle: a halted machine stands. -/
theorem cycle_keeps {P : State → Prop} (h : cycle V s = .next (t, o)) (hs : P s)
    (hrun : s.fault = none → s.ctrl.hlt = false → s.accessInRange V → ∀ i, V.decode (irAfter V s) = .ok i →
      P (afterCycle V i s)) : P t := by
  cases hh : s.ctrl.hlt with
  | true =>
    rw [cycle_of_halted V (cycle_next h).1 hh] at h
    cases h
    exact hs
  | false =>
    obtain ⟨hf, -, hrange, -, i, hi, rfl⟩ := cycle_next_afterCycle h hh
    exact hrun hf hh hrange i hi

/-! ### The statements about single phases -/

/-- Settles O16: the pending flags of `afterCycle`. -/
theorem pendingFlagsEveryCycle : Obligations.PendingFlagsEveryCycle := by
  intro ι V s t o h hh
  obtain ⟨-, -, -, -, i, -, rfl⟩ := cycle_next_afterCycle h hh
  rfl

/-- Settles O21: the latches of `afterCycle`, with its bus the resolver's. -/
theorem latchesTakeTheBus : Obligations.LatchesTakeTheBus := by
  intro ι V s t o h hh
  obtain ⟨-, -, hrange, -, i, -, rfl⟩ := cycle_next_afterCycle h hh
  exact ⟨resolved V s, resolve_eq_resolved fun hro => hrange (.inl hro), rfl, rfl, rfl, rfl, rfl⟩

/-- Settles O26: the advance of `afterCycle`, by the three cases of `nextMstep` and `boundForced`. -/
theorem advanceChoosesNextWord : Obligations.AdvanceChoosesNextWord := by
  intro ι V s t o h hh
  obtain ⟨-, -, -, -, i, hi, rfl⟩ := cycle_next_afterCycle h hh
  refine ⟨i, hi, rfl, ?_⟩
  simp only [afterCycle, nextMstep, boundForced]
  cases hrst : s.ctrl.rst with
  | true => simp
  | false =>
    by_cases hb : V.bound < s.mstep + 1
    · simp [hb]
    · simp [hb]

/-- Settles O24: the fault comes from the resolver or the write phase. -/
theorem addressOutOfRangeFaults : Obligations.AddressOutOfRangeFaults := by
  intro ι V s hf hh hmr haccess hmar
  exact cycle_outOfRange hf hh (by simpa using hmr) haccess hmar

/-- Settles O60: the two cases of the decode of `irAfter`. -/
theorem undecodableIrFaults : Obligations.UndecodableIrFaults := by
  intro ι V
  refine ⟨fun s hf hh hmr hrange => ?_, fun e he => ?_⟩
  · have hmr : (s.ctrl.mi && s.ctrl.ri) = false := by simpa using hmr
    refine ⟨resolved V s, resolve_eq_resolved fun hro => hrange (.inl hro), fun e he => ?_, fun i hi => ?_⟩
    · exact cycle_of_decode_error hf hh hmr hrange he
    · exact ⟨_, _, cycle_of_decode_ok hf hh hmr hrange hi, rfl⟩
  · exact cycle_of_decode_error rfl rfl rfl (by simp [State.accessInRange, State.reset, fetchAddress]) he

/-- Settles O23: the memory and the record `fresh` of `afterCycle`, and the guard of `setInput`. -/
theorem memoryChangesOnlyByStoreOrLoad : Obligations.MemoryChangesOnlyByStoreOrLoad := by
  intro ι V s
  refine ⟨fun t o h hri => ?_, fun t o h hh => ?_, fun bytes t h => ?_⟩
  · exact cycle_keeps (P := fun u => u.mem = s.mem) h rfl fun _ _ _ i _ => by simp [afterCycle, hri]
  · obtain ⟨-, -, -, -, i, -, rfl⟩ := cycle_next_afterCycle h hh
    rfl
  · cases hfresh : s.fresh with
    | true => rfl
    | false =>
      cases hf : s.fault with
      | none => simp [setInput_of_not_fresh V bytes hf hfresh] at h
      | some f => simp [setInput_of_fault V bytes hf] at h

/-! ### The program counter (R157, R158) -/

theorem nextPc_toNat (hpos : 0 < V.cap) (hcap : V.cap ≤ 256) (v : Byte) :
    (nextPc V v).toNat = (v.toNat + 1) % V.cap := by
  have hlt := Nat.mod_lt (v.toNat + 1) hpos
  rw [nextPc, BitVec.toNat_ofNat, Nat.mod_eq_of_lt (by omega)]

theorem jumpTarget_toNat (hpow : isPowerOfTwo V.cap = true) (hcap : V.cap ≤ 256) (bus : Byte) :
    (jumpTarget V bus).toNat = bus.toNat % V.cap := by
  obtain ⟨k, hk⟩ := (isPowerOfTwo_iff V.cap).mp hpow
  have hpos := Nat.two_pow_pos k
  rw [jumpTarget, addressMask, BitVec.toNat_and, BitVec.toNat_ofNat, Nat.mod_eq_of_lt (by omega), hk,
    Nat.and_two_pow_sub_one_eq_mod]

theorem cap_pos_of_isPowerOfTwo (hpow : isPowerOfTwo V.cap = true) : 0 < V.cap := by
  obtain ⟨k, hk⟩ := (isPowerOfTwo_iff V.cap).mp hpow
  exact hk ▸ Nat.two_pow_pos k

/-- Settles O25: `pcAfter` as numbers. -/
theorem programCounterAfterCycle : Obligations.ProgramCounterAfterCycle := by
  intro ι V s t o hw hcap h hh
  obtain ⟨r, hr, -, -, -, hpc⟩ := cycle_next_running h hh
  have hpos := cap_pos_of_isPowerOfTwo hw.cap_powerOfTwo
  have hjump := jumpTarget_toNat hw.cap_powerOfTwo hcap r.bus
  refine ⟨r, hr, ?_⟩
  simp only [hpc, pcAfter, apply_ite BitVec.toNat, nextPc_toNat hpos hcap, hjump, Bool.or_eq_true, Bool.and_eq_true,
    or_assoc]

/-- How a record counts and jumps, by its capacity. -/
theorem nextPc_jumpTarget_of_cap {n : Nat} (hn : V.cap = n) (hpow : isPowerOfTwo n = true) (hcap : n ≤ 256)
    (v : Byte) :
    (nextPc V v).toNat = (v.toNat + 1) % n ∧ (jumpTarget V v).toNat = v.toNat % n := by
  subst hn
  exact ⟨nextPc_toNat (cap_pos_of_isPowerOfTwo hpow) hcap v, jumpTarget_toNat hpow hcap v⟩

/-- Settles O59: the records' fields, and the program counter by their capacity. -/
theorem variantParameters : Obligations.VariantParameters := by
  refine ⟨⟨rfl, rfl, rfl⟩, fun ι opcodes table v => ?_, fun ι mask dec table v => ?_, fun v => ?_⟩
  · exact ⟨rfl, rfl, rfl, rfl, nextPc_jumpTarget_of_cap (n := 16) rfl (by decide) (by decide) v⟩
  · obtain ⟨hnext, hjump⟩ :=
      nextPc_jumpTarget_of_cap (V := wide mask dec table) (n := 256) rfl (by decide) (by decide) v
    exact ⟨rfl, rfl, rfl, rfl, rfl, hnext, BitVec.eq_of_toNat_eq (hjump.trans (Nat.mod_eq_of_lt v.isLt))⟩
  · exact nextPc_jumpTarget_of_cap (V := narrow) (n := 16) rfl (by decide) (by decide) v

/-! ### Halted and faulted machines (R151, R162) -/

theorem tick_of_halted (V : Variant ι) (hf : s.fault = none) (hh : s.ctrl.hlt = true) : tick V s = .next s :=
  tick_next.mpr ⟨none, cycle_of_halted V hf hh⟩

theorem step_of_halted (hf : s.fault = none) (hh : s.ctrl.hlt = true) : step s = .next s := by
  simp [step, hf, State.halted, hh]

theorem cycles_of_halted (V : Variant ι) (hf : s.fault = none) (hh : s.ctrl.hlt = true) (n : Nat) :
    cycles V n s = .next s := by
  induction n with
  | zero => rfl
  | succ n ih => rw [cycles_succ, tick_of_halted V hf hh, andThen_next, ih]

/-- Settles O27: the halted cases of the cycle, the step and the cycles in a row. -/
theorem haltedMachineNeverChanges : Obligations.HaltedMachineNeverChanges :=
  fun _ V _ hf hh => ⟨cycle_of_halted V hf hh, step_of_halted hf hh, cycles_of_halted V hf hh⟩

theorem step_of_fault {f : Fault} (hf : s.fault = some f) : step s = .fault f := by
  simp [step, hf, raiseFault]

theorem exec_eq_executeInstr (i : Instr) (s : State) : exec i s = executeInstr i s := by
  cases i <;> rfl

theorem exec_of_fault {f : Fault} (i : Instr) (hf : s.fault = some f) : exec i s = .fault f := by
  simp [exec_eq_executeInstr, executeInstr, hf, raiseFault]

/-- Settles O29: the faulted cases of the cycle, the step and every instruction. -/
theorem faultedMachineTakesNoCycle : Obligations.FaultedMachineTakesNoCycle :=
  fun _ V _ _ hf => ⟨cycle_of_fault V hf, step_of_fault hf, fun i => exec_of_fault i hf⟩

/-- Settles O15: the Carry output by its definition in both modes. -/
theorem carryOutputOfOverflowOrBorrow : Obligations.CarryOutputOfOverflowOrBorrow :=
  fun _ _ => ⟨decide_eq_true_iff, decide_eq_true_iff⟩

end Sys2Proof.Machine
end

section
/-!
PROOFS. What every cycle of every variant keeps: the control invariant (R163) and the memory invariant; and that a
well-formed variant is never refused in a state of the control invariant (R128).
-/
namespace Sys2Proof.Machine

variable {ι : Type} {V : Variant ι} {s t : State} {i : ι} {o : Option Byte}

/-! ### The control invariant -/

theorem nextPc_lt (hpos : 0 < V.cap) (v : Byte) : (nextPc V v).toNat < V.cap := by
  rw [nextPc, BitVec.toNat_ofNat]
  exact (Nat.mod_le _ _).trans_lt (Nat.mod_lt _ hpos)

theorem jumpTarget_lt (hpos : 0 < V.cap) (bus : Byte) : (jumpTarget V bus).toNat < V.cap := by
  have hmask : (addressMask V).toNat ≤ V.cap - 1 := by
    rw [addressMask, BitVec.toNat_ofNat]
    exact Nat.mod_le _ _
  have hand : (jumpTarget V bus).toNat ≤ (addressMask V).toNat := by
    rw [jumpTarget, BitVec.toNat_and]
    exact Nat.and_le_right
  omega

theorem pcAfter_lt (w : CtrlWord) (fl : Flags) (bus : Byte) {pc : Byte} (h : pc.toNat < V.cap) :
    (pcAfter V w fl bus pc).toNat < V.cap := by
  have hpos : 0 < V.cap := by omega
  have hjumped : (if w.j || (w.jz && fl.z) || (w.jc && fl.c) then jumpTarget V bus else pc).toNat < V.cap := by
    split
    · exact jumpTarget_lt hpos bus
    · exact h
  unfold pcAfter
  cases w.ce with
  | true => exact nextPc_lt hpos _
  | false => exact hjumped

theorem nextMstep_le (V : Variant ι) (s : State) : nextMstep V s ≤ V.bound := by
  unfold nextMstep
  split_ifs <;> omega

/-- The advance phase puts the control word and the microstep into the table's relation, whatever they were. -/
theorem controlInv_afterCycle (hw : V.WellFormed) (hpc : s.pc.toNat < V.cap)
    (hi : V.decode (irAfter V s) = .ok i) : ControlInv V (afterCycle V i s) where
  mstep_le := nextMstep_le V s
  pc_lt := pcAfter_lt _ _ _ hpc
  ctrl_fetch hm := by
    have hm : nextMstep V s = 0 := hm
    simp [afterCycle, hm, hw.fetch0]
  ctrl_table := ⟨i, hi, fun _ => rfl⟩

/-- Settles O52: a halted machine stands, a running one leaves `afterCycle`. -/
theorem cycleKeepsControlInv : Obligations.CycleKeepsControlInv := by
  intro ι V s t o hw hinv h
  exact cycle_keeps h hinv fun _ _ _ i hi => controlInv_afterCycle hw hinv.pc_lt hi

/-- The current word of a state of the control invariant is a word of the table. -/
theorem ControlInv.ctrl_eq_microcode (hw : V.WellFormed) (h : ControlInv V s) :
    ∃ i, V.decode s.ir = .ok i ∧ s.ctrl = V.microcode i s.mstep := by
  obtain ⟨i, hi, hword⟩ := h.ctrl_table
  refine ⟨i, hi, ?_⟩
  obtain hm | hm := Nat.eq_zero_or_pos s.mstep
  · rw [h.ctrl_fetch hm, hm, hw.fetch0 i]
  · exact hword hm

/-- Settles O54: a refusal needs a word the table's check excludes. -/
theorem wellFormedVariantNeverRefuses : Obligations.WellFormedVariantNeverRefuses := by
  intro ι V s e hw hinv h
  obtain ⟨-, hh, hmi, hri, -⟩ := cycle_refused h
  obtain ⟨i, -, hword⟩ := hinv.ctrl_eq_microcode hw
  rw [hword] at hh hmi hri
  exact (wordOk_iff _).mp (hw.words i s.mstep) hh ⟨hmi, hri⟩

/-! ### The memory invariant -/

theorem memoryInv_afterCycle (hinv : MemoryInv V s) (hrange : s.accessInRange V) : MemoryInv V (afterCycle V i s) := by
  cases hri : s.ctrl.ri with
  | false =>
    have hmem : (afterCycle V i s).mem = s.mem := by simp [afterCycle, hri]
    exact ⟨hmem ▸ hinv.canonical, hmem ▸ hinv.in_range⟩
  | true =>
    have hmem : (afterCycle V i s).mem = s.mem.write s.mar.toNat (busValue V s) := by simp [afterCycle, hri]
    exact ⟨hmem ▸ Memory.write_wf _ _ _ hinv.canonical,
      hmem ▸ Memory.write_below _ _ _ _ hinv.in_range (hrange (.inr hri))⟩

/-- Settles O53: a write goes to `MAR`, which is inside the array. -/
theorem cycleKeepsMemoryInv : Obligations.CycleKeepsMemoryInv := by
  intro ι V s t o hinv h
  exact cycle_keeps h hinv fun _ _ hrange i _ => memoryInv_afterCycle hinv hrange

end Sys2Proof.Machine
end

section
/-!
PROOFS. The execute sequence of the reference microcode: what its words have in common (R130-R141), the states it runs
through, and its length; the meaning of every instruction is then a number of `afterCycle`s.
-/
namespace Sys2Proof.Machine

variable {i : Instr} {s t : State} {m n j : Nat}

/-! ### The words of the reference table -/

/-- HLT's sequence is the one that ends halted and not with `RST` (R129). -/
def halts : Instr → Bool
  | .hlt _ => true
  | _ => false

/-- What the words of a row have in common: none loads `IR`; `HLT` is in all or none; without it exactly the last word
has `RST`; `MI` comes only as `IO|MI`, and so does the first of several words; memory is read or written only later. -/
def RowOk (row : List CtrlWord) (halting : Bool) : Prop :=
  ∀ n < row.length,
    (row.getD n CtrlWord.empty).ii = false ∧ (row.getD n CtrlWord.empty).hlt = halting ∧
    (halting = false → (row.getD n CtrlWord.empty).rst = decide (n + 1 = row.length)) ∧
    ((row.getD n CtrlWord.empty).mi = true → row.getD n CtrlWord.empty = { io := true, mi := true }) ∧
    (n = 0 → 1 < row.length → (row.getD n CtrlWord.empty).mi = true) ∧
    ((row.getD n CtrlWord.empty).ro = true ∨ (row.getD n CtrlWord.empty).ri = true → 1 ≤ n)

theorem rowOk_executeWords (i : Instr) : RowOk (executeWords i) (halts i) := by
  cases i <;> simp only [executeWords, halts] <;> unfold RowOk <;> decide

theorem lastMstep_bounds (i : Instr) : 2 ≤ lastMstep i ∧ lastMstep i ≤ 4 := by
  cases i <;> simp only [lastMstep, executeWords] <;> decide

/-- What the word of `i` at microstep `m` has, by its place in the row. -/
structure ExecuteWord (i : Instr) (m : Nat) (w : CtrlWord) : Prop where
  ii : w.ii = false
  hlt : w.hlt = halts i
  rst : halts i = false → w.rst = decide (m = lastMstep i)
  mi : w.mi = true → w = { io := true, mi := true }
  first_mi : m = 2 → 2 < lastMstep i → w.mi = true
  access : w.ro = true ∨ w.ri = true → 3 ≤ m

/-- `rowOk_executeWords` by microsteps, the first of which is 2. -/
theorem executeWord_microcode (h2 : 2 ≤ m) (hm : m ≤ lastMstep i) : ExecuteWord i m (microcode i m) := by
  obtain ⟨n, rfl⟩ := Nat.exists_eq_add_of_le' h2
  unfold lastMstep at hm
  obtain ⟨hii, hhlt, hrst, hmi, hfirst, haccess⟩ := rowOk_executeWords i n (by omega)
  rw [microcode_execute]
  exact {
    ii := hii
    hlt := hhlt
    rst := fun hi => by rw [hrst hi, decide_eq_decide, lastMstep]; omega
    mi := hmi
    first_mi := fun h0 hlast => hfirst (by omega) (by unfold lastMstep at hlast; omega)
    access := fun h => by have := haccess h; omega }

/-! ### Cycles to the end of a sequence -/

theorem finish_of_done (n : Nat) (h : sequenceDone s = true) : finish n s = .next s := by
  cases n <;> simp [finish, h]

theorem finish_succ (n : Nat) (h : sequenceDone s = false) : finish (n + 1) s = andThen (tick narrow s) (finish n) := by
  simp [finish, h]

/-! ### The states of an execute sequence -/

/-- The machine is at microstep `m` of the execute sequence of `i`, with its word current. `MAR` holds the operand once
an execute word has latched it. -/
structure Executing (i : Instr) (m : Nat) (s : State) : Prop where
  no_fault : s.fault = none
  ir : s.ir = encode i
  mstep : s.mstep = m
  ctrl : s.ctrl = microcode i m
  first_le : 2 ≤ m
  le_last : m ≤ lastMstep i
  mar_lt : 3 ≤ m → s.mar.toNat < narrow.cap

namespace Executing

variable (h : Executing i m s)

include h

theorem word : ExecuteWord i m s.ctrl := h.ctrl ▸ executeWord_microcode h.first_le h.le_last

theorem not_mi_ri : (s.ctrl.mi && s.ctrl.ri) = false := by
  cases hmi : s.ctrl.mi with
  | false => rfl
  | true => rw [h.word.mi hmi]; rfl

theorem accessInRange : s.accessInRange narrow := fun haccess => h.mar_lt (h.word.access haccess)

theorem irAfter_eq : irAfter narrow s = encode i := by
  simp [irAfter, h.word.ii, h.ir]

theorem cycle_next (hi : halts i = false) :
    cycle narrow s = .next (afterCycle narrow i s, producedOutput s.ctrl (busValue narrow s)) := by
  refine cycle_of_decode_ok h.no_fault (h.word.hlt.trans hi) h.not_mi_ri h.accessInRange ?_
  rw [h.irAfter_eq, narrow_decode, decode_encode]

/-- A word with `MI` latches the operand of `i`. -/
theorem mar_afterCycle (hmi : s.ctrl.mi = true) : (afterCycle narrow i s).mar = i.operand.setWidth 8 := by
  simp [afterCycle, busValue, h.word.mi hmi, h.ir, operandOut_encode]

/-- The last word's cycle ends the sequence. -/
theorem mstep_afterCycle_last (hi : halts i = false) (hm : m = lastMstep i) : (afterCycle narrow i s).mstep = 0 := by
  simp [afterCycle, nextMstep, h.word.rst hi, hm]

theorem nextMstep_inner (hi : halts i = false) (hm : m < lastMstep i) : nextMstep narrow s = m + 1 := by
  have hlast := lastMstep_bounds i
  have hrst : s.ctrl.rst = false := (h.word.rst hi).trans (decide_eq_false hm.ne)
  rw [nextMstep_of_no_rst hrst, narrow_bound, h.mstep, if_pos (by omega)]

/-- An earlier word's cycle leads to the next word. -/
theorem afterCycle_inner (hi : halts i = false) (hm : m < lastMstep i) :
    Executing i (m + 1) (afterCycle narrow i s) where
  no_fault := h.no_fault
  ir := h.irAfter_eq
  mstep := h.nextMstep_inner hi hm
  ctrl := congrArg (microcode i) (h.nextMstep_inner hi hm)
  first_le := h.first_le.trans (Nat.le_succ m)
  le_last := hm
  mar_lt _ := by
    cases hmi : s.ctrl.mi with
    | true =>
      rw [h.mar_afterCycle hmi]
      exact operand_lt i.operand
    | false =>
      have hm2 : m ≠ 2 := fun hm2 => by simp [h.word.first_mi hm2 (hm2 ▸ hm)] at hmi
      have hmar : (afterCycle narrow i s).mar = s.mar := by simp [afterCycle, hmi]
      rw [hmar]
      exact h.mar_lt (by have := h.first_le; omega)

theorem not_ended (hi : halts i = false) : s.mstep ≠ 0 ∧ isHalted s = false :=
  ⟨by have := h.first_le; rw [h.mstep]; omega, h.word.hlt.trans hi⟩

theorem not_done (hi : halts i = false) : sequenceDone s = false := by
  obtain ⟨hm, hh⟩ := h.not_ended hi
  simp only [isHalted] at hh
  simp [sequenceDone, hm, hh]

/-! ### Runs of the sequence -/

/-- `n` cycles inside the sequence lead `n` words on. -/
theorem iterate (hi : halts i = false) (n : Nat) (hn : m + n ≤ lastMstep i) :
    Executing i (m + n) ((afterCycle narrow i)^[n] s) := by
  induction n generalizing m s with
  | zero => exact h
  | succ n ih =>
    rw [Function.iterate_succ_apply, show m + (n + 1) = m + 1 + n by omega]
    exact ih (h.afterCycle_inner hi (by omega)) (by omega)

/-- As many cycles as the sequence has left, or fewer, complete. -/
theorem cycles_next (hi : halts i = false) (n : Nat) (hn : m + n ≤ lastMstep i + 1) :
    cycles narrow n s = .next ((afterCycle narrow i)^[n] s) := by
  induction n generalizing m s with
  | zero => rfl
  | succ n ih =>
    rw [cycles_succ_of_next n (h.cycle_next hi), Function.iterate_succ_apply]
    cases n with
    | zero => rfl
    | succ n => exact ih (h.afterCycle_inner hi (by omega)) (by omega)

theorem finish_succ (hi : halts i = false) (fuel : Nat) :
    finish (fuel + 1) s = finish fuel (afterCycle narrow i s) := by
  rw [Machine.finish_succ fuel (h.not_done hi), tick_next.mpr ⟨_, h.cycle_next hi⟩, andThen_next]

/-- The sequence ends after its last word, and with enough fuel `finish` is its cycles. -/
theorem finish_next (hi : halts i = false) (n fuel : Nat) (hn : m + n = lastMstep i) (hfuel : n < fuel) :
    finish fuel s = .next ((afterCycle narrow i)^[n + 1] s) ∧ ((afterCycle narrow i)^[n + 1] s).mstep = 0 := by
  induction n generalizing m s fuel with
  | zero =>
    obtain ⟨fuel, rfl⟩ : ∃ k, fuel = k + 1 := ⟨fuel - 1, by omega⟩
    have hend := h.mstep_afterCycle_last hi (by omega)
    exact ⟨(h.finish_succ hi fuel).trans (finish_of_done fuel (by simp [sequenceDone, hend])), hend⟩
  | succ n ih =>
    obtain ⟨fuel, rfl⟩ : ∃ k, fuel = k + 1 := ⟨fuel - 1, by omega⟩
    rw [h.finish_succ hi fuel, Function.iterate_succ_apply]
    exact ih (h.afterCycle_inner hi (by omega)) fuel (by omega) (by omega)

end Executing

/-! ### The meaning of an instruction (R124) -/

theorem executeInstr_of_no_fault (i : Instr) (hf : s.fault = none) :
    executeInstr i s = finish sequenceFuel (s.fetchedInstr i) := by
  simp [executeInstr, hf]

theorem executing_fetchedInstr (i : Instr) (hf : s.fault = none) : Executing i 2 (s.fetchedInstr i) where
  no_fault := hf
  ir := rfl
  mstep := rfl
  ctrl := rfl
  first_le := le_refl 2
  le_last := (lastMstep_bounds i).1
  mar_lt hm := absurd hm (by decide)

/-- Every instruction but HLT completes, after one cycle for each of its execute words. -/
theorem exec_eq_iterate (hi : halts i = false) (hf : s.fault = none) :
    exec i s = .next ((afterCycle narrow i)^[(executeWords i).length] (s.fetchedInstr i)) := by
  have hlast := lastMstep_bounds i
  obtain ⟨n, hn⟩ : ∃ n, lastMstep i = 2 + n := Nat.exists_eq_add_of_le hlast.1
  have hlength : (executeWords i).length = n + 1 := by unfold lastMstep at hn; omega
  have hfuel : n < sequenceFuel := by simp only [sequenceFuel, narrow_bound]; omega
  rw [exec_eq_executeInstr, executeInstr_of_no_fault i hf, hlength]
  exact ((executing_fetchedInstr i hf).finish_next hi n _ hn.symm hfuel).1

/-- HLT completes at once: its word is current and never executed (R129). -/
theorem exec_of_halts (hi : halts i = true) (hf : s.fault = none) : exec i s = .next (s.fetchedInstr i) := by
  rw [exec_eq_executeInstr, executeInstr_of_no_fault i hf]
  have hhlt := (executing_fetchedInstr i hf).word.hlt
  exact finish_of_done _ (by simp only [sequenceDone, State.halted, hhlt, hi, Bool.or_true])

/-! ### The results of the eleven instructions

Each is the table's words, run one after the other by `afterCycle_narrow`. -/

@[simp] theorem microcode_two (i : Instr) : microcode i 2 = (executeWords i).getD 0 CtrlWord.empty := rfl

@[simp] theorem microcode_three (i : Instr) : microcode i 3 = (executeWords i).getD 1 CtrlWord.empty := rfl

@[simp] theorem microcode_four (i : Instr) : microcode i 4 = (executeWords i).getD 2 CtrlWord.empty := rfl

/-- `afterCycle` of `Narrow` with its phases written out, to be run on words that are given in full. -/
theorem afterCycle_narrow (i : Instr) (s : State) :
    afterCycle narrow i s =
      let bus := driven s.ctrl.co s.pc ||| driven s.ctrl.ao s.a ||| driven s.ctrl.bo s.b |||
        driven s.ctrl.io (operandOut narrow s.ir) ||| driven s.ctrl.ro (s.mem.read s.mar.toNat) |||
        driven s.ctrl.eo (adderValue s.a s.b s.ctrl.su)
      let flags := if s.ctrl.fi then s.pending else s.flags
      let jumped := if s.ctrl.j || (s.ctrl.jz && flags.z) || (s.ctrl.jc && flags.c) then jumpTarget narrow bus else s.pc
      let next := if s.ctrl.rst then 0 else if 5 < s.mstep + 1 then 0 else s.mstep + 1
      { pc := if s.ctrl.ce then nextPc narrow jumped else jumped
        a := if s.ctrl.ai then bus else s.a
        b := if s.ctrl.bi then bus else s.b
        out := if s.ctrl.oi then bus else s.out
        mar := if s.ctrl.mi then bus else s.mar
        ir := if s.ctrl.ii then bus else s.ir
        flags := flags
        pending := adderFlags s.a s.b s.ctrl.su
        ctrl := microcode i next
        mstep := next
        mem := if s.ctrl.ri then s.mem.write s.mar.toNat bus else s.mem
        fault := s.fault
        boundReset := s.boundReset || (!s.ctrl.rst && decide (5 < s.mstep + 1))
        outputs := s.outputs ++ (if s.ctrl.oi then some bus else none).toList
        fresh := false } := rfl

/-- A jump to an operand goes there: every operand is an address inside the array. -/
theorem jumpTarget_operand (k : Nibble) : jumpTarget narrow (k.setWidth 8) = k.setWidth 8 := by
  apply BitVec.eq_of_toNat_eq
  rw [jumpTarget_toNat (by decide) (by decide), narrow_cap]
  exact Nat.mod_eq_of_lt (operand_lt k)

/-- An operand widened to a byte is the same number. -/
@[simp] theorem operand_toNat_mod (k : Nibble) : k.toNat % 256 = k.toNat :=
  Nat.mod_eq_of_lt (k.isLt.trans (by decide))

theorem adderValue_add (a b : Byte) : adderValue a b false = BitVec.ofNat 8 ((a.toNat + b.toNat) % 256) := by
  apply BitVec.eq_of_toNat_eq
  simp [adderValue, BitVec.toNat_add]

theorem adderValue_sub (a b : Byte) : adderValue a b true = BitVec.ofNat 8 ((a.toNat + 256 - b.toNat) % 256) := by
  apply BitVec.eq_of_toNat_eq
  have := b.isLt
  simp only [adderValue, if_true, BitVec.toNat_sub, BitVec.toNat_ofNat]
  omega

theorem adderFlags_add (a b : Byte) :
    adderFlags a b false =
      { z := decide ((a.toNat + b.toNat) % 256 = 0), c := decide (255 < a.toNat + b.toNat) } := by
  have hz : adderZero a b false = decide ((a.toNat + b.toNat) % 256 = 0) :=
    Bool.eq_iff_iff.mpr (((zeroOutputOfWrappedValue.1 a b).1).trans decide_eq_true_iff.symm)
  rw [adderFlags, hz]
  rfl

theorem adderFlags_sub (a b : Byte) :
    adderFlags a b true = { z := decide (a.toNat = b.toNat), c := decide (a.toNat < b.toNat) } := by
  have hz : adderZero a b true = decide (a.toNat = b.toNat) := by
    have ha := a.isLt
    have hb := b.isLt
    refine Bool.eq_iff_iff.mpr (((zeroOutputOfWrappedValue.1 a b).2).trans ?_)
    rw [decide_eq_true_iff]
    omega
  rw [adderFlags, hz]
  rfl

/-- Settles O33: the word has nothing but `RST`. -/
theorem nopResult : Obligations.NopResult := by
  intro x s hf
  rw [exec_eq_iterate rfl hf]
  simp [executeWords, microNop, afterCycle_narrow]

/-- Settles O34: `MAR` takes the operand, then `A` the byte at it. -/
theorem ldaResult : Obligations.LdaResult := by
  intro k s hf
  rw [exec_eq_iterate rfl hf]
  simp [executeWords, microLda, afterCycle_narrow, operandOut_encode, Instr.operand]

/-- Settles O35: `MAR` takes the operand, then `A` is stored at it. -/
theorem staResult : Obligations.StaResult := by
  intro k s hf
  rw [exec_eq_iterate rfl hf]
  simp [executeWords, microSta, afterCycle_narrow, operandOut_encode, Instr.operand]

/-- Settles O36: `A` takes the operand. -/
theorem ldiResult : Obligations.LdiResult := by
  intro k s hf
  rw [exec_eq_iterate rfl hf]
  simp [executeWords, microLdi, afterCycle_narrow, operandOut_encode, Instr.operand]

/-- Settles O37: the `FI` word commits the flags of the cycle before it, with the old `B`. -/
theorem addResult : Obligations.AddResult := by
  intro k s hf
  rw [exec_eq_iterate rfl hf]
  simp [executeWords, microAdd, afterCycle_narrow, operandOut_encode, Instr.operand, adderValue_add, adderFlags_add]

/-- Settles O38: the `FI` word commits the flags of the cycle before it, in add mode with the old `B`. -/
theorem subResult : Obligations.SubResult := by
  intro k s hf
  rw [exec_eq_iterate rfl hf]
  simp [executeWords, microSub, afterCycle_narrow, operandOut_encode, Instr.operand, adderValue_sub, adderFlags_add,
    adderFlags_sub]

/-- Settles O39: the jump is to the operand. -/
theorem jmpResult : Obligations.JmpResult := by
  intro k s hf
  rw [exec_eq_iterate rfl hf]
  simp [executeWords, microJmp, afterCycle_narrow, operandOut_encode, Instr.operand, jumpTarget_operand]

/-- Settles O40: the jump is to the operand, on the latched carry. -/
theorem jcResult : Obligations.JcResult := by
  intro k s hf
  rw [exec_eq_iterate rfl hf]
  simp [executeWords, microJc, afterCycle_narrow, operandOut_encode, Instr.operand, jumpTarget_operand]

/-- Settles O41: the jump is to the operand, on the latched zero. -/
theorem jzResult : Obligations.JzResult := by
  intro k s hf
  rw [exec_eq_iterate rfl hf]
  simp [executeWords, microJz, afterCycle_narrow, operandOut_encode, Instr.operand, jumpTarget_operand]

/-- Settles O42: the bus is `A`, and the cycle returns it. -/
theorem outResult : Obligations.OutResult := by
  intro x s hf
  rw [exec_eq_iterate rfl hf]
  simp [executeWords, microOut, afterCycle_narrow]

/-- Settles O43: the `HLT` word is current and never executed. -/
theorem hltResult : Obligations.HltResult :=
  fun _ _ hf => exec_of_halts rfl hf

end Sys2Proof.Machine
end

section
/-!
PROOFS. What the instructions leave unchanged (spec/43_instr_memory.md to spec/46_instr_system.md), read off their
results, and the words of the reference table (R130-R140).
-/
namespace Sys2Proof.Machine

variable {i : Instr} {s t u : State}

/-- Settles O32: the table's entries. -/
theorem referenceMicrocode : Obligations.ReferenceMicrocode := fun _ =>
  ⟨rfl, rfl, rfl, rfl, rfl, rfl, rfl, rfl, rfl, rfl, rfl, rfl, rfl, rfl, rfl, rfl, rfl⟩

theorem no_fault_of_exec (h : exec i s = .next t) : s.fault = none := by
  cases hf : s.fault with
  | none => rfl
  | some f => simp [exec_of_fault i hf] at h

/-- An instruction has one result. -/
theorem exec_next_unique (h : exec i s = .next t) (hu : s.fault = none → exec i s = .next u) : t = u := by
  rw [hu (no_fault_of_exec h)] at h
  cases h
  rfl

theorem regsKept_iff (changed : List Reg) (s t : State) :
    regsKept changed s t ↔
      (.pc ∉ changed → t.pc = s.pc) ∧ (.a ∉ changed → t.a = s.a) ∧ (.b ∉ changed → t.b = s.b) ∧
        (.out ∉ changed → t.out = s.out) ∧ (.mar ∉ changed → t.mar = s.mar) ∧ (.ir ∉ changed → t.ir = s.ir) := by
  constructor
  · intro h
    exact ⟨h .pc, h .a, h .b, h .out, h .mar, h .ir⟩
  · rintro ⟨hpc, ha, hb, hout, hmar, hir⟩ r
    cases r with
    | pc => exact hpc
    | a => exact ha
    | b => exact hb
    | out => exact hout
    | mar => exact hmar
    | ir => exact hir

/-- Settles O44: the fields of each result. -/
theorem frameOfRegisterOnlyInstructions : Obligations.FrameOfRegisterOnlyInstructions := by
  intro k i changed s t hmem h
  simp only [List.mem_cons, Prod.mk.injEq, List.not_mem_nil, or_false] at hmem
  obtain ⟨rfl, rfl⟩ | ⟨rfl, rfl⟩ | ⟨rfl, rfl⟩ | ⟨rfl, rfl⟩ | ⟨rfl, rfl⟩ | ⟨rfl, rfl⟩ | ⟨rfl, rfl⟩ := hmem
  · obtain rfl := exec_next_unique h (nopResult k s)
    simp [memoryKept, regsKept_iff]
  · obtain rfl := exec_next_unique h (ldiResult k s)
    simp [memoryKept, regsKept_iff]
  · obtain rfl := exec_next_unique h (jmpResult k s)
    simp [memoryKept, regsKept_iff]
  · obtain rfl := exec_next_unique h (jcResult k s)
    simp [memoryKept, regsKept_iff]
  · obtain rfl := exec_next_unique h (jzResult k s)
    simp [memoryKept, regsKept_iff]
  · obtain rfl := exec_next_unique h (outResult k s)
    simp [memoryKept, regsKept_iff]
  · obtain rfl := exec_next_unique h (hltResult k s)
    simp [memoryKept, regsKept_iff]

/-- Settles O45: the fields of each result. -/
theorem frameOfMemoryReadingInstructions : Obligations.FrameOfMemoryReadingInstructions := by
  intro k i changed s t hmem h
  simp only [List.mem_cons, Prod.mk.injEq, List.not_mem_nil, or_false] at hmem
  obtain ⟨rfl, rfl⟩ | ⟨rfl, rfl⟩ | ⟨rfl, rfl⟩ := hmem
  · obtain rfl := exec_next_unique h (ldaResult k s)
    simp [memoryKept, regsKept_iff]
  · obtain rfl := exec_next_unique h (addResult k s)
    simp [memoryKept, regsKept_iff]
  · obtain rfl := exec_next_unique h (subResult k s)
    simp [memoryKept, regsKept_iff]

/-- Settles O46: the store is at the operand, and a read elsewhere does not see it. -/
theorem frameOfStore : Obligations.FrameOfStore := by
  intro k s t hwf h
  obtain rfl := exec_next_unique h (staResult k s)
  refine ⟨?_, by simp [regsKept_iff], rfl, rfl, rfl, rfl, rfl⟩
  rintro x y rfl hy
  have haddress : (operandOut narrow (encode (.sta k))).toNat = k.toNat := by simp [operandOut_encode, Instr.operand]
  rw [haddress] at hy
  simp [Memory.read_write s.mem k.toNat y s.a hwf, hy.symm]

end Sys2Proof.Machine
end

section
/-!
PROOFS. Whole steps of `Narrow`: the fetch and the instruction it brings (R164), the undefined opcodes (R213), a step as
cycles and their number (R270), and a fetch after a store (R63).
-/
namespace Sys2Proof.Machine

variable {i j : Instr} {s t u : State} {m n : Nat}

/-! ### The three kinds of step -/

/-- Between two instructions a step is the fetch and then the fetched instruction. -/
theorem step_of_boundary (hf : s.fault = none) (hm : s.mstep = 0) (hctrl : s.ctrl = fetchAddress) :
    step s = andThen (fetch s) execFetched := by
  have hh : s.halted = false := by rw [State.halted, hctrl]; rfl
  simp [step, hf, hh, State.atBoundary, hm, hctrl]

/-- Inside an instruction a step is the rest of it. -/
theorem step_of_inside (hf : s.fault = none) (hh : s.ctrl.hlt = false) (hb : s.atBoundary = false) :
    step s = andThen (tick narrow s) (finish sequenceFuel) := by
  simp [step, hf, State.halted, hh, hb]

theorem execFetched_of_decode (hi : decode s.ir = .ok i) : execFetched s = exec i s := by
  simp [execFetched, instrInIr, hi]

/-! ### The fetch -/

theorem irAfter_fetchOpcode (hctrl : s.ctrl = fetchOpcode) : irAfter narrow s = s.mem.read s.mar.toNat := by
  simp [irAfter, busValue, hctrl, fetchOpcode]

theorem nextMstep_fetch (hm : s.mstep < 2) (hrst : s.ctrl.rst = false) : nextMstep narrow s = s.mstep + 1 := by
  rw [nextMstep_of_no_rst hrst, narrow_bound, if_pos (by omega)]

/-- The second cycle of the fetch faults when the byte at `MAR` does not decode (R231). -/
theorem cycle_fetchOpcode_error {e : DecodeError} (hf : s.fault = none) (hctrl : s.ctrl = fetchOpcode)
    (hmar : s.mar.toNat < narrow.cap) (he : decode (s.mem.read s.mar.toNat) = .error e) :
    cycle narrow s = .fault (.decodeError (s.mem.read s.mar.toNat)) := by
  have hir := irAfter_fetchOpcode hctrl
  rw [← hir]
  exact cycle_of_decode_error hf (by rw [hctrl]; rfl) (by rw [hctrl]; rfl) (fun _ => hmar) (hir ▸ he)

/-- A completed second cycle of the fetch leaves an instruction at its first execute word. -/
theorem executing_of_fetchOpcode {o : Option Byte} (hctrl : s.ctrl = fetchOpcode) (hm : s.mstep = 1)
    (h : cycle narrow s = .next (t, o)) : ∃ i, Executing i 2 t := by
  obtain ⟨hf, -, -, -, i, hi, rfl⟩ := cycle_next_afterCycle h (by rw [hctrl]; rfl)
  have hnext : nextMstep narrow s = 2 := by rw [nextMstep_fetch (by omega) (by rw [hctrl]; rfl), hm]
  exact ⟨i, {
    no_fault := hf
    ir := (encode_of_decode hi).symm
    mstep := hnext
    ctrl := congrArg (microcode i) hnext
    first_le := le_refl 2
    le_last := (lastMstep_bounds i).1
    mar_lt := fun h3 => absurd h3 (by decide) }⟩

/-- A completed first cycle of the fetch leaves its second word. -/
theorem fetchOpcode_of_fetchAddress {o : Option Byte} (hctrl : s.ctrl = fetchAddress) (hm : s.mstep = 0)
    (h : cycle narrow s = .next (t, o)) : t.ctrl = fetchOpcode ∧ t.mstep = 1 := by
  obtain ⟨-, -, -, -, i, -, rfl⟩ := cycle_next_afterCycle h (by rw [hctrl]; rfl)
  have hnext : nextMstep narrow s = 1 := by rw [nextMstep_fetch (by omega) (by rw [hctrl]; rfl), hm]
  exact ⟨congrArg (microcode i) hnext, hnext⟩

section Fetch

variable (hf : s.fault = none) (hm : s.mstep = 0) (hctrl : s.ctrl = fetchAddress) (hpc : s.pc.toNat < narrow.cap)
  (hj : decode s.ir = .ok j)

include hf hm hctrl hpc hj

theorem fetch_eq_afterFetch (hi : decode (s.mem.read s.pc.toNat) = .ok i) : fetch s = .next (afterFetch i s) := by
  rw [fetch, cycles_two_fetch narrow_wellFormed hf hctrl hm (by decide) hpc hj hi, ← encode_of_decode hi]
  rfl

/-- A step runs the instruction at `PC`. -/
theorem step_eq_exec (hi : decode (s.mem.read s.pc.toNat) = .ok i) : step s = exec i (afterFetch i s) := by
  rw [step_of_boundary hf hm hctrl, fetch_eq_afterFetch hf hm hctrl hpc hj hi, andThen_next]
  exact execFetched_of_decode (decode_encode i)

/-- A byte that does not decode ends the second cycle of the fetch. -/
theorem step_of_decode_error {e : DecodeError} (he : decode (s.mem.read s.pc.toNat) = .error e) :
    step s = .fault (.decodeError (s.mem.read s.pc.toNat)) := by
  obtain ⟨u, o, hfirst, hf', hctrl', hmar, hmem⟩ : ∃ u o, cycle narrow s = .next (u, o) ∧ u.fault = none ∧
      u.ctrl = fetchOpcode ∧ u.mar = s.pc ∧ u.mem = s.mem :=
    ⟨_, _, cycle_fetchAddress hf hctrl hm (by decide) hj, hf, rfl, rfl, rfl⟩
  rw [← hmar, ← hmem] at he ⊢
  rw [step_of_boundary hf hm hctrl, fetch, cycles_succ_of_next 1 hfirst, cycles_succ,
    tick_fault.mpr (cycle_fetchOpcode_error hf' hctrl' (hmar ▸ hpc) he), andThen_fault, andThen_fault]

end Fetch

/-- Settles O47: the step is the instruction's meaning on the fetched state; `PC` counts modulo 16. -/
theorem stepRunsDecodedInstruction : Obligations.StepRunsDecodedInstruction := by
  intro s i j hf hm hctrl hpc hj hi
  refine ⟨step_eq_exec hf hm hctrl hpc hj hi, ?_, encode_of_decode hi⟩
  have hnext : (afterFetch i s).pc.toNat = (s.pc.toNat + 1) % narrow.cap := nextPc_toNat (by decide) (by decide) s.pc
  rw [hnext, narrow_cap]
  split <;> omega

/-- Settles O48: the bytes of that range do not decode. -/
theorem stepOfUndefinedOpcodeFaults : Obligations.StepOfUndefinedOpcodeFaults := by
  intro s j hf hm hctrl hpc hj hlo hhi
  exact step_of_decode_error hf hm hctrl hpc hj (decode_of_undefinedOpcode ((undefinedOpcode_iff _).mpr ⟨hlo, hhi⟩))

/-- Settles O51: the store leaves the byte at `PC`, and the fetch reads it there. -/
theorem storeIsSeenByNextFetch : Obligations.StoreIsSeenByNextFetch := by
  intro s t k i hf hwf hpc hi h
  obtain rfl := exec_next_unique h (staResult k s)
  have hstored : (s.mem.write k.toNat s.a).read s.pc.toNat = s.a := by
    simp [Memory.read_write s.mem _ _ s.a hwf, hpc]
  have hrange : s.pc.toNat < narrow.cap := hpc ▸ operand_lt k
  refine step_eq_exec hf rfl rfl hrange (decode_encode (.sta k)) ?_
  simp only [hstored, hi]

/-! ### A step is cycles (log 1) -/

/-- The answer `r` is that of `lo` to `hi` cycles from `s`, and where it goes on the sequence has ended. -/
def CyclesToEnd (lo hi : Nat) (s : State) (r : Host.Outcome State Fault Refusal) : Prop :=
  (∃ n, lo ≤ n ∧ n ≤ hi ∧ r = cycles narrow n s) ∧ ∀ t, r = .next t → sequenceDone t = true

theorem cyclesToEnd_of_done (n : Nat) (h : sequenceDone s = true) : CyclesToEnd 0 n s (.next s) := by
  refine ⟨⟨0, le_refl 0, Nat.zero_le n, rfl⟩, fun t ht => ?_⟩
  cases ht
  exact h

/-- One cycle first, then the rest from where it leads; a fault or a refusal of it is the answer. -/
theorem cyclesToEnd_succ {f : State → Host.Outcome State Fault Refusal} (n : Nat)
    (h : ∀ u, tick narrow s = .next u → ∃ lo, CyclesToEnd lo n u (f u)) :
    CyclesToEnd 1 (n + 1) s (andThen (tick narrow s) f) := by
  cases htick : tick narrow s with
  | next u =>
    obtain ⟨lo, ⟨k, -, hk, hcycles⟩, hdone⟩ := h u htick
    refine ⟨⟨k + 1, by omega, by omega, ?_⟩, hdone⟩
    rw [cycles_succ, htick, andThen_next, andThen_next, hcycles]
  | fault f => exact ⟨⟨1, by omega, by omega, by simp [cycles_succ, htick]⟩, by simp⟩
  | refused e => exact ⟨⟨1, by omega, by omega, by simp [cycles_succ, htick]⟩, by simp⟩

/-- A completed running cycle goes to microstep 0 or one further, never past the bound. -/
theorem mstep_of_tick (hh : s.ctrl.hlt = false) (h : tick narrow s = .next t) :
    t.mstep = 0 ∨ (t.mstep = s.mstep + 1 ∧ t.mstep ≤ narrow.bound) := by
  obtain ⟨o, h⟩ := tick_next.mp h
  obtain ⟨-, -, -, -, i, -, rfl⟩ := cycle_next_afterCycle h hh
  have hmstep : (afterCycle narrow i s).mstep = nextMstep narrow s := rfl
  rw [hmstep, nextMstep]
  split_ifs <;> omega

theorem sequenceDone_iff (s : State) : sequenceDone s = true ↔ s.mstep = 0 ∨ isHalted s = true := by
  simp [sequenceDone, isHalted]

/-- The bound leaves `finish` at most `n` cycles, and with that much fuel it goes to the end of the sequence. -/
theorem cyclesToEnd_finish (n fuel : Nat) (s : State)
    (hs : s.mstep = 0 ∨ (s.mstep ≤ narrow.bound ∧ narrow.bound < s.mstep + n)) (hfuel : n ≤ fuel) :
    ∃ lo, CyclesToEnd lo n s (finish fuel s) := by
  induction n generalizing s fuel with
  | zero =>
    have hd : sequenceDone s = true := (sequenceDone_iff s).mpr (.inl (by omega))
    rw [finish_of_done fuel hd]
    exact ⟨0, cyclesToEnd_of_done 0 hd⟩
  | succ n ih =>
    cases hd : sequenceDone s with
    | true =>
      rw [finish_of_done fuel hd]
      exact ⟨0, cyclesToEnd_of_done _ hd⟩
    | false =>
      obtain ⟨hm, hh⟩ : s.mstep ≠ 0 ∧ s.ctrl.hlt = false := by simpa [sequenceDone, State.halted] using hd
      obtain ⟨fuel, rfl⟩ : ∃ k, fuel = k + 1 := ⟨fuel - 1, by omega⟩
      rw [finish_succ fuel hd]
      refine ⟨1, cyclesToEnd_succ n fun u hu => ih fuel u ?_ (by omega)⟩
      have hmstep := mstep_of_tick hh hu
      omega

theorem Executing.fetchedInstr_eq (h : Executing i 2 s) : s.fetchedInstr i = s := by
  rw [State.fetchedInstr, ← h.ir, ← h.ctrl, ← h.mstep]

/-- What the fetch has brought is run to the end of its sequence. -/
theorem Executing.execFetched_eq (h : Executing i 2 s) : execFetched s = finish sequenceFuel s := by
  have hi : decode s.ir = .ok i := by rw [h.ir, decode_encode]
  rw [execFetched_of_decode hi, exec_eq_executeInstr, executeInstr_of_no_fault i h.no_fault, h.fetchedInstr_eq]

theorem andThen_fetch (s : State) (f : State → Host.Outcome State Fault Refusal) :
    andThen (fetch s) f = andThen (tick narrow s) fun u => andThen (tick narrow u) f := by
  rw [fetch, cycles_succ]
  cases tick narrow s with
  | next u =>
    rw [andThen_next, andThen_next, cycles_succ]
    cases tick narrow u <;> rfl
  | fault f => rfl
  | refused e => rfl

theorem cyclesToEnd_step_of_boundary (hf : s.fault = none) (hm : s.mstep = 0) (hctrl : s.ctrl = fetchAddress) :
    CyclesToEnd 1 (narrow.bound + 1) s (step s) := by
  rw [step_of_boundary hf hm hctrl, andThen_fetch]
  refine cyclesToEnd_succ 5 fun u hu => ⟨1, cyclesToEnd_succ 4 fun v hv => ?_⟩
  obtain ⟨_, hu⟩ := tick_next.mp hu
  obtain ⟨_, hv⟩ := tick_next.mp hv
  obtain ⟨hctrl', hm'⟩ := fetchOpcode_of_fetchAddress hctrl hm hu
  obtain ⟨i, hexec⟩ := executing_of_fetchOpcode hctrl' hm' hv
  rw [hexec.execFetched_eq]
  exact cyclesToEnd_finish 4 sequenceFuel v (.inr (by rw [hexec.mstep]; decide)) (by decide)

theorem cyclesToEnd_step_of_inside (hf : s.fault = none) (hh : s.ctrl.hlt = false) (hb : s.atBoundary = false) :
    CyclesToEnd 1 (narrow.bound + 1) s (step s) := by
  rw [step_of_inside hf hh hb]
  refine cyclesToEnd_succ 5 fun u hu => cyclesToEnd_finish 5 sequenceFuel u ?_ (by decide)
  have hmstep := mstep_of_tick hh hu
  rw [narrow_bound] at hmstep ⊢
  omega

theorem atBoundary_iff (s : State) : s.atBoundary = true ↔ s.mstep = 0 ∧ s.ctrl = fetchAddress := by
  simp [State.atBoundary]

/-- Every step is at most `BOUND + 1` cycles, to the end of a sequence. -/
theorem cyclesToEnd_step (s : State) : CyclesToEnd 1 (narrow.bound + 1) s (step s) := by
  cases hf : s.fault with
  | some f =>
    rw [step_of_fault hf]
    exact ⟨⟨1, by decide, by decide, by simp [cycles_succ, tick_fault.mpr (cycle_of_fault narrow hf)]⟩, by simp⟩
  | none =>
    cases hh : s.ctrl.hlt with
    | true =>
      rw [step_of_halted hf hh]
      refine ⟨⟨1, by decide, by decide, (cycles_of_halted narrow hf hh 1).symm⟩, fun t ht => ?_⟩
      cases ht
      exact (sequenceDone_iff s).mpr (.inr hh)
    | false =>
      cases hb : s.atBoundary with
      | true =>
        obtain ⟨hm, hctrl⟩ := (atBoundary_iff s).mp hb
        exact cyclesToEnd_step_of_boundary hf hm hctrl
      | false => exact cyclesToEnd_step_of_inside hf hh hb

/-- Settles O49: `CyclesToEnd` of the step. -/
theorem stepIsCycles : Obligations.StepIsCycles := by
  intro s
  obtain ⟨hcycles, hdone⟩ := cyclesToEnd_step s
  exact ⟨hcycles, fun t ht => (sequenceDone_iff t).mp (hdone t ht)⟩

/-! ### The number of cycles (R270) -/

theorem cycles_add (m n : Nat) (s : State) :
    cycles narrow (m + n) s = andThen (cycles narrow m s) (cycles narrow n) := by
  induction m generalizing s with
  | zero => rw [Nat.zero_add, cycles_zero, andThen_next]
  | succ m ih =>
    rw [Nat.add_right_comm, cycles_succ, cycles_succ]
    cases tick narrow s with
    | next u => exact ih u
    | fault f => rfl
    | refused e => rfl

theorem cycleCount_eq (i : Instr) : cycleCount i = 2 + if halts i then 0 else (executeWords i).length := by
  cases i <;> rfl

theorem executing_afterFetch (i : Instr) (hf : s.fault = none) : Executing i 2 (afterFetch i s) :=
  executing_fetchedInstr i (s := afterFetch i s) hf

/-- The machine a fetch has left completes its instruction, in as many cycles as it has execute words. -/
theorem exec_afterFetch (i : Instr) (hf : s.fault = none) :
    ∃ t, cycles narrow (if halts i then 0 else (executeWords i).length) (afterFetch i s) = .next t ∧
      exec i (afterFetch i s) = .next t := by
  cases hi : halts i with
  | true => exact ⟨_, rfl, exec_of_halts hi hf⟩
  | false =>
    refine ⟨_, (executing_afterFetch i hf).cycles_next hi _ ?_, exec_eq_iterate hi hf⟩
    simp only [Bool.false_eq_true, if_false, lastMstep]
    omega

/-- Settles O50: two cycles of the fetch, then one for each execute word; HLT's word takes none. -/
theorem cycleCounts : Obligations.CycleCounts := by
  intro s i j hf hm hctrl hpc hj hbyte
  have hi : decode (s.mem.read s.pc.toNat) = .ok i := by rw [hbyte, decode_encode]
  have hfetch : cycles narrow 2 s = .next (afterFetch i s) := fetch_eq_afterFetch hf hm hctrl hpc hj hi
  constructor
  · obtain ⟨t, hcycles, hexec⟩ := exec_afterFetch (s := s) i hf
    have hstep : step s = .next t := (step_eq_exec hf hm hctrl hpc hj hi).trans hexec
    refine ⟨t, ?_, hstep, (stepIsCycles s).2 t hstep⟩
    rw [cycleCount_eq, cycles_add, hfetch, andThen_next, hcycles]
  · intro n u hpos hlt hu
    obtain rfl | h2 : n = 1 ∨ 2 ≤ n := by omega
    · have hfirst := cycles_one (cycle_fetchAddress hf hctrl hm (by decide) (V := narrow) hj)
      rw [hfirst] at hu
      cases hu
      exact ⟨by simp, rfl⟩
    · obtain ⟨k, rfl⟩ := Nat.exists_eq_add_of_le h2
      have hlength := cycleCount_eq i
      cases hi : halts i with
      | true => simp only [hi, if_true] at hlength; omega
      | false =>
        simp only [hi, Bool.false_eq_true, if_false] at hlength
        have hk : 2 + k ≤ lastMstep i := by unfold lastMstep; omega
        have hexec := executing_afterFetch (s := s) i hf
        rw [cycles_add, hfetch, andThen_next, hexec.cycles_next hi k (by omega)] at hu
        cases hu
        exact (hexec.iterate hi k hk).not_ended hi

end Sys2Proof.Machine
end

section
/-!
PROOFS. The invariant of the reference machine: it holds after construction, every cycle and so every step keeps it, and
from it a step ends only in an undefined opcode (R163, R230, R233).
-/
namespace Sys2Proof.Machine

variable {i : Instr} {s t : State} {m n : Nat}

/-- Settles O55: the fields of the reset state. -/
theorem resetHasNarrowInv : Obligations.ResetHasNarrowInv where
  control :=
    { mstep_le := by decide
      pc_lt := by decide
      ctrl_fetch := fun _ => rfl
      ctrl_table := ⟨.nop 0, rfl, fun h => absurd h (by decide)⟩ }
  memory := ⟨rfl, rfl⟩
  mar_lt := by decide
  in_sequence _ _ := Nat.zero_le _
  no_fault := rfl
  no_boundReset := rfl

/-- Where a state of the invariant is: at one of the two words of the fetch or at an execute word. -/
theorem NarrowInv.cases (h : NarrowInv s) :
    (s.mstep = 0 ∧ s.ctrl = fetchAddress) ∨ (s.mstep = 1 ∧ s.ctrl = fetchOpcode) ∨
      ∃ i, Executing i s.mstep s := by
  obtain ⟨i, hi, hword⟩ := h.control.ctrl_eq_microcode narrow_wellFormed
  obtain hm | hm | hm : s.mstep = 0 ∨ s.mstep = 1 ∨ 2 ≤ s.mstep := by omega
  · exact .inl ⟨hm, h.control.ctrl_fetch hm⟩
  · exact .inr (.inl ⟨hm, by rw [hword, hm]; rfl⟩)
  · exact .inr (.inr ⟨i, {
      no_fault := h.no_fault
      ir := (encode_of_decode hi).symm
      mstep := rfl
      ctrl := hword
      first_le := hm
      le_last := h.in_sequence i hi
      mar_lt := fun _ => h.mar_lt }⟩)

/-! ### Every cycle keeps the invariant -/

/-- What the advance and the address latch of a running cycle must leave for the invariant to hold again. -/
def AdvancesInSequence (i : Instr) (s : State) : Prop :=
  (afterCycle narrow i s).mar.toNat < narrow.cap ∧ nextMstep narrow s ≤ lastMstep i ∧ boundForced narrow s = false

theorem advancesInSequence_of_fetchAddress (i : Instr) (hm : s.mstep = 0) (hctrl : s.ctrl = fetchAddress)
    (hpc : s.pc.toNat < narrow.cap) : AdvancesInSequence i s := by
  have hmar : (afterCycle narrow i s).mar = s.pc := by simp [afterCycle, busValue, hctrl, fetchAddress]
  have hrst : s.ctrl.rst = false := by rw [hctrl]; rfl
  have hlast := lastMstep_bounds i
  refine ⟨hmar ▸ hpc, ?_, ?_⟩
  · rw [nextMstep_fetch (by omega) hrst]
    omega
  · simp [boundForced, hm]

theorem advancesInSequence_of_fetchOpcode (i : Instr) (hm : s.mstep = 1) (hctrl : s.ctrl = fetchOpcode)
    (hmar : s.mar.toNat < narrow.cap) : AdvancesInSequence i s := by
  have hrst : s.ctrl.rst = false := by rw [hctrl]; rfl
  have hlast := lastMstep_bounds i
  refine ⟨by simpa [afterCycle, hctrl, fetchOpcode] using hmar, ?_, ?_⟩
  · rw [nextMstep_fetch (by omega) hrst]
    omega
  · simp [boundForced, hm]

theorem advancesInSequence_of_executing (h : Executing i m s) (hi : halts i = false) (hmar : s.mar.toNat < narrow.cap) :
    AdvancesInSequence i s := by
  have hlast := lastMstep_bounds i
  have hle := h.le_last
  refine ⟨?_, ?_, ?_⟩
  · cases hmi : s.ctrl.mi with
    | true =>
      rw [h.mar_afterCycle hmi]
      exact operand_lt i.operand
    | false => simpa [afterCycle, hmi] using hmar
  · obtain hm | hm := hle.lt_or_eq
    · rw [h.nextMstep_inner hi hm]
      exact hm
    · exact (h.mstep_afterCycle_last hi hm).trans_le (Nat.zero_le _)
  · have hbound : ¬ narrow.bound < m + 1 := by rw [narrow_bound]; omega
    rw [boundForced, h.mstep, decide_eq_false hbound, Bool.and_false]

/-- The instruction that a running cycle decodes is the one whose sequence it advances in. -/
theorem NarrowInv.advancesInSequence (h : NarrowInv s) (hh : s.ctrl.hlt = false)
    (hi : decode (irAfter narrow s) = .ok i) : AdvancesInSequence i s := by
  obtain ⟨hm, hctrl⟩ | ⟨hm, hctrl⟩ | ⟨j, hexec⟩ := h.cases
  · exact advancesInSequence_of_fetchAddress i hm hctrl h.control.pc_lt
  · exact advancesInSequence_of_fetchOpcode i hm hctrl h.mar_lt
  · rw [hexec.irAfter_eq, decode_encode] at hi
    cases hi
    exact advancesInSequence_of_executing hexec (hexec.word.hlt.symm.trans hh) h.mar_lt

theorem narrowInv_afterCycle (h : NarrowInv s) (hh : s.ctrl.hlt = false) (hrange : s.accessInRange narrow)
    (hi : decode (irAfter narrow s) = .ok i) : NarrowInv (afterCycle narrow i s) := by
  obtain ⟨hmar, hmstep, hbound⟩ := h.advancesInSequence hh hi
  exact {
    control := controlInv_afterCycle narrow_wellFormed h.control.pc_lt hi
    memory := memoryInv_afterCycle h.memory hrange
    mar_lt := hmar
    in_sequence := fun j hj => by
      have hij : decode (irAfter narrow s) = .ok j := hj
      rw [hi] at hij
      cases hij
      exact hmstep
    no_fault := h.no_fault
    no_boundReset := by simp [afterCycle, h.no_boundReset, hbound] }

theorem cycle_keeps_narrowInv {o : Option Byte} (h : NarrowInv s) (hc : cycle narrow s = .next (t, o)) : NarrowInv t :=
  cycle_keeps hc h fun _ hh hrange _ hi => narrowInv_afterCycle h hh hrange hi

theorem cycles_keep_narrowInv (n : Nat) (h : NarrowInv s) (hc : cycles narrow n s = .next t) : NarrowInv t := by
  induction n generalizing s with
  | zero =>
    cases hc
    exact h
  | succ n ih =>
    obtain ⟨u, hu, ht⟩ := andThen_eq_next.mp hc
    obtain ⟨o, hu⟩ := tick_next.mp hu
    exact ih (cycle_keeps_narrowInv h hu) ht

/-- Settles O56: a step is cycles, and each keeps the invariant. -/
theorem stepKeepsNarrowInv : Obligations.StepKeepsNarrowInv := by
  intro s t hinv h
  obtain ⟨⟨n, -, -, hcycles⟩, -⟩ := cyclesToEnd_step s
  exact cycles_keep_narrowInv n hinv (hcycles ▸ h)

/-! ### From the invariant only the decode can fault (R230) -/

theorem exec_completes (i : Instr) (hf : s.fault = none) : ∃ t, exec i s = .next t := by
  cases hi : halts i with
  | true => exact ⟨_, exec_of_halts hi hf⟩
  | false => exact ⟨_, exec_eq_iterate hi hf⟩

/-- An execute sequence runs to its end: HLT's at once, any other after its last word. -/
theorem Executing.finish_completes (h : Executing i m s) (hfuel : 3 ≤ n) : ∃ t, finish n s = .next t := by
  have hlast := lastMstep_bounds i
  have hfirst := h.first_le
  cases hi : halts i with
  | true => exact ⟨s, finish_of_done n ((sequenceDone_iff s).mpr (.inr (h.word.hlt.trans hi)))⟩
  | false => exact ⟨_, (h.finish_next hi (lastMstep i - m) n (by have := h.le_last; omega) (by omega)).1⟩

theorem undefined_of_decode_error {b : Byte} {e : DecodeError} (he : decode b = .error e) :
    0x90 ≤ b.toNat ∧ b.toNat ≤ 0xDF := by
  rw [← undefinedOpcode_iff]
  by_contra hdefined
  obtain ⟨i, hi⟩ := decode_of_defined hdefined
  rw [hi] at he
  cases he

/-- From between two instructions a step runs the byte at `PC`. -/
theorem step_of_fetchAddress (h : NarrowInv s) (hm : s.mstep = 0) (hctrl : s.ctrl = fetchAddress) :
    (∃ t, step s = .next t) ∨ ∃ e, decode (s.mem.read s.pc.toNat) = .error e ∧
      step s = .fault (.decodeError (s.mem.read s.pc.toNat)) := by
  obtain ⟨j, hj, -⟩ := h.control.ctrl_table
  cases hi : decode (s.mem.read s.pc.toNat) with
  | ok i =>
    rw [step_eq_exec h.no_fault hm hctrl h.control.pc_lt hj hi]
    exact .inl (exec_completes i h.no_fault)
  | error e => exact .inr ⟨e, rfl, step_of_decode_error h.no_fault hm hctrl h.control.pc_lt hj hi⟩

/-- From the second word of the fetch a step runs the byte at `MAR`. -/
theorem step_of_fetchOpcode (h : NarrowInv s) (hm : s.mstep = 1) (hctrl : s.ctrl = fetchOpcode) :
    (∃ t, step s = .next t) ∨ ∃ e, decode (s.mem.read s.mar.toNat) = .error e ∧
      step s = .fault (.decodeError (s.mem.read s.mar.toNat)) := by
  have hb : s.atBoundary = false := by simp [State.atBoundary, hm]
  rw [step_of_inside h.no_fault (by rw [hctrl]; rfl) hb]
  cases hi : decode (s.mem.read s.mar.toNat) with
  | ok i =>
    have hcycle := cycle_fetchOpcode h.no_fault hctrl hm (by decide) h.mar_lt hi
    obtain ⟨j, hexec⟩ := executing_of_fetchOpcode hctrl hm hcycle
    rw [tick_next.mpr ⟨_, hcycle⟩, andThen_next]
    exact .inl (hexec.finish_completes (by decide))
  | error e =>
    rw [tick_fault.mpr (cycle_fetchOpcode_error h.no_fault hctrl h.mar_lt hi), andThen_fault]
    exact .inr ⟨e, rfl, rfl⟩

/-- From an execute word a step completes. -/
theorem step_of_executing (h : Executing i m s) : ∃ t, step s = .next t := by
  cases hi : halts i with
  | true => exact ⟨s, step_of_halted h.no_fault (h.word.hlt.trans hi)⟩
  | false =>
    have hb : s.atBoundary = false := by simp [State.atBoundary, (h.not_ended hi).1]
    rw [step_of_inside h.no_fault (h.word.hlt.trans hi) hb, ← finish_succ sequenceFuel (h.not_done hi)]
    exact h.finish_completes (by decide)

/-- Settles O57: only the two fetch words can fault, each on its fetched byte. -/
theorem stepFaultsOnlyOnUndefinedOpcode : Obligations.StepFaultsOnlyOnUndefinedOpcode := by
  intro s h
  obtain ⟨hm, hctrl⟩ | ⟨hm, hctrl⟩ | ⟨i, hexec⟩ := h.cases
  · obtain hnext | ⟨e, he, hfault⟩ := step_of_fetchAddress h hm hctrl
    · exact .inl hnext
    · obtain ⟨hlo, hhi⟩ := undefined_of_decode_error he
      exact .inr ⟨_, hlo, hhi, hfault, .inl ⟨hm, rfl⟩⟩
  · obtain hnext | ⟨e, he, hfault⟩ := step_of_fetchOpcode h hm hctrl
    · exact .inl hnext
    · obtain ⟨hlo, hhi⟩ := undefined_of_decode_error he
      exact .inr ⟨_, hlo, hhi, hfault, .inr ⟨hm, rfl⟩⟩
  · exact .inl (step_of_executing hexec)

end Sys2Proof.Machine
end
